-- ==== Sys2Proof/Word.lean ====
section
/-! DEFINITION. The one word of CORE: a byte (R7 XLEN = 8, R10). Bit 0 is the least significant bit (R9). -/

namespace Sys2Proof

/-- A memory cell, a general register, FL, an opcode or an operand: 8 bits, read as an unsigned number (R10). -/
abbrev Byte := BitVec 8

end Sys2Proof
end

