-- ==== Sys2Proof/Config.lean ====
section
/-! DEFINITION. The parameters of CORE (R7): what the machine's build fixes, the shapes of the parameters the spec
asks to keep as named configuration, and the free values.

Three parameter VALUES that a test could show wrong stand in files a later repair may mend, under this same
namespace: `Config.opcodes` (OPC_*, D1) in Decode.lean, `Config.flagLayout` (FL_*_BIT, D3) in Machine/Flags.lean, and
`FaultCause.code` (CODE_*, D11) in Machine/Ops.lean. -/

namespace Sys2Proof

namespace Config

/-- `MEM_SIZE`: addresses 0 to 255 (R7, R50). -/
@[simp] abbrev memSize : Nat := 256

/-- `NREGS`: general registers x[0] to x[7] (R7, R21). -/
@[simp] abbrev nRegs : Nat := 8

/-- `SP_INDEX`: register 7 is the stack pointer (R7, R22). -/
@[simp] abbrev spIndex : Fin nRegs := 7

/-- `SP_RESET`: 256 - 12 = 0xF4 (R7, R8, S10). -/
@[simp] abbrev spReset : Byte := 0xF4

/-- `PC_RESET` (R7). -/
@[simp] abbrev pcReset : Nat := 0

/-- `LOAD_BASE`: the address of the first program byte (R7, R60). -/
@[simp] abbrev loadBase : Nat := 0

/-- `MAX_ILEN`: bytes fetched by every step, and the greatest instruction length (R7, R80). -/
@[simp] abbrev maxIlen : Nat := 3

/-- What a cell that nothing has written reads as: "every address is always defined (zero-initialized)" (R50). -/
@[simp] abbrev memReset : Byte := 0x00

/-- `R_RESET`: x[0] to x[6] and FL at reset (R7, R40). PRESUMED, entry 3: the source gives none; the spec's D13 takes
the LS-8 family's zero. -/
@[simp] abbrev rReset : Byte := 0x00

end Config

/-- The 13 mnemonics, in the order of the source's table (R83). -/
inductive Mnemonic where
  | hlt | ldi | prn | add | mul | cmp | push | pop | call | ret | jmp | jeq | jne
  deriving DecidableEq, Repr

/-- Every mnemonic, in the order of the source's table (R83: the set is closed). -/
def Mnemonic.all : List Mnemonic :=
  [.hlt, .ldi, .prn, .add, .mul, .cmp, .push, .pop, .call, .ret, .jmp, .jeq, .jne]

/-- The number of operand bytes after the opcode: the formats F0, F1, F2 (R80). -/
def Mnemonic.operandCount : Mnemonic → Nat
  | .hlt | .ret => 0
  | .prn | .push | .pop | .call | .jmp | .jeq | .jne => 1
  | .ldi | .add | .mul | .cmp => 2

/-- Does the ALU perform it (R81, R120)? -/
def Mnemonic.usesAlu : Mnemonic → Bool
  | .add | .mul | .cmp => true
  | .hlt | .ldi | .prn | .push | .pop | .call | .ret | .jmp | .jeq | .jne => false

/-- The configuration fields `OPC_<mnemonic>` (R7, R83): one opcode byte for each mnemonic. -/
abbrev OpcodeMap := Mnemonic → Byte

/-- The side conditions of R81 and R83 on an opcode assignment: pairwise distinct bytes; bits 7:6 are the number of
operand bytes; bit 5 is set exactly for ADD, MUL and CMP. -/
structure OpcodeMap.Valid (m : OpcodeMap) : Prop where
  distinct : ∀ j k, m j = m k → j = k
  nops : ∀ k, ((m k).extractLsb' 6 2).toNat = k.operandCount
  alu : ∀ k, (m k).getLsbD 5 = k.usesAlu

/-- The configuration fields `FL_L_BIT`, `FL_G_BIT`, `FL_E_BIT` (R7, R31). -/
structure FlagLayout where
  lBit : Nat
  gBit : Nat
  eBit : Nat
  deriving DecidableEq, Repr

/-- D3: the three positions are distinct and each is in 0 to 2. -/
structure FlagLayout.Valid (k : FlagLayout) : Prop where
  lLow : k.lBit ≤ 2
  gLow : k.gBit ≤ 2
  eLow : k.eBit ≤ 2
  lg : k.lBit ≠ k.gBit
  le : k.lBit ≠ k.eBit
  ge : k.gBit ≠ k.eBit

namespace Config

/-- FREE VALUE (entry 13, U16, C9): the ALU's `flags` output for ADD, which the engine discards (R140). -/
opaque aluAddFlags : Byte → Byte → Byte

/-- FREE VALUE (entry 13, U16, C9): the ALU's `flags` output for MUL, which the engine discards (R140). -/
opaque aluMulFlags : Byte → Byte → Byte

/-- FREE VALUE (entry 13, U16, C9): the ALU's `result` output for CMP, which the engine discards (R140). -/
opaque aluCmpResult : Byte → Byte → Byte

end Config

end Sys2Proof
end

