-- ==== Sys2Proof/Machine/State.lean ====
section
/-! DEFINITION. The whole state of CORE, "the following and nothing else" (R20), its reset value (R40), and the two ways a
step can fail to give a next state. -/

namespace Sys2Proof.Machine

/-- `RUN` (R34): RUNNING and HALTED are the source's, FAULTED the spec's third, terminal value (D11). -/
inductive RunState where
  | running
  | halted
  | faulted
  deriving DecidableEq, Repr

/-- The three causes of R190. -/
inductive FaultCause where
  /-- A memory address or register index outside its bounds (R191). -/
  | outOfRange
  /-- The ALU's port was given a selector it does not know (R192); no program can cause it. -/
  | unsupportedOperation
  /-- The opcode byte is none of the 13 (R193). -/
  | illegalInstruction
  deriving DecidableEq, Repr

/-- The argument of `raise <Cause>(info)` (R11): `info` is a mathematical integer, such as -1 or 256 (R35). -/
structure Raise where
  cause : FaultCause
  info : Int
  deriving DecidableEq, Repr

/-- `FAULT` (R35, R195): a latched byte not yet read when the fault was raised is `none`, its valid bit clear (D24). -/
structure FaultRecord where
  cause : FaultCause
  pc : Nat
  opc : Option Byte
  opa : Option Byte
  opb : Option Byte
  info : Int
  deriving DecidableEq, Repr

/-- `MEM`: the cells that do not read 0x00, in rising address order (`Memory.wf` in Machine/Ops.lean). -/
abbrev Memory := List Host.Cell

/-- The state of CORE (R20), one field for each of its seven rows. -/
structure State where
  /-- `MEM`, 256 cells of 8 bits (R50). -/
  mem : Memory
  /-- `x[0..7]`; `x[7]` is SP (R21, R22). -/
  regs : Vector Byte 8
  /-- `pc`, 0 to 256 (R26, R28). -/
  pc : Nat
  /-- `FL` (R30). -/
  fl : Byte
  /-- `RUN` (R34). -/
  run : RunState
  /-- `FAULT`, `none` while no field is valid (R35, R40). -/
  fault : Option FaultRecord
  /-- `OUT`, oldest value first (R36). -/
  out : List Byte
  deriving DecidableEq, Repr

/-- The machine right after reset, with the empty program (R40, R220): memory all zero, nothing listed. -/
def State.reset : State where
  mem := []
  regs := #v[Config.rReset, Config.rReset, Config.rReset, Config.rReset, Config.rReset, Config.rReset, Config.rReset,
    Config.spReset]
  pc := Config.pcReset
  fl := Config.rReset
  run := .running
  fault := none
  out := []

/-- Why `step` answers no state: only because the spec gives the state no step at all (R12, R110, entry 4). A `raise` of
R198 is NOT one of these: it is a next state with `RUN = FAULTED`. -/
inductive Fault where
  /-- Raised by `step` alone, in a state with `RUN = HALTED`: "no step is taken and no state changes" (R110, R117). Safe:
  the model stops where the machine has stopped. -/
  | halted
  /-- Raised by `step` alone, in a state with `RUN = FAULTED`: FAULTED "has no step" (R198, R199). Safe, as above. -/
  | faulted
  deriving DecidableEq, Repr

/-- Why the model gives an instruction no meaning. Every instruction has one, so no arm of `exec` answers it. -/
inductive Refusal where
  /-- Raised by an arm of `exec` whose instruction is not modelled yet (none is left). Safe. -/
  | notModelled (mnemonic : String)
  deriving DecidableEq, Repr

/-- The outcome of an instruction or of a step. -/
abbrev Outcome := Host.Outcome State Fault Refusal

/-- What a rule's pseudocode gives before it is committed: a value, or the first `raise` it meets (R11). -/
abbrev Res (α : Type) := Except Raise α

end Sys2Proof.Machine
end

