-- ==== Sys2Proof/Machine/Flags.lean ====
section
/-! DEFINITION. The flags register FL (R30 to R33) and the one flag computation there is, CMP's (R143). -/

namespace Sys2Proof

/-- `FL = 0b00000LGE` (R31). PRESUMED, entry 2: the source only names the order; the spec's D3 takes the LS-8 layout. -/
def Config.flagLayout : FlagLayout := ⟨2, 1, 0⟩

namespace Machine

/-- The byte with only bit `n` set. -/
def bitMask (n : Nat) : Byte := (1 : Byte) <<< n

/-- CMP's flags byte under a layout: E if equal, G if the first operand is the greater, L if it is the less, as unsigned
numbers; every other bit 0 (R143, entry 19). -/
def cmpFlagsWith (k : FlagLayout) (a b : Byte) : Byte :=
  if a.toNat = b.toNat then bitMask k.eBit
  else if b.toNat < a.toNat then bitMask k.gBit
  else bitMask k.lBit

/-- CMP's flags byte (R143, R147). -/
def cmpFlags (a b : Byte) : Byte := cmpFlagsWith Config.flagLayout a b

/-- `FL[FL_L_BIT]` (R30). No instruction reads it (R32). -/
def State.flagL (s : State) : Bool := s.fl.getLsbD Config.flagLayout.lBit

/-- `FL[FL_G_BIT]` (R30). No instruction reads it (R32). -/
def State.flagG (s : State) : Bool := s.fl.getLsbD Config.flagLayout.gBit

/-- `FL[FL_E_BIT]` (R30): what JEQ and JNE read (R32). -/
def State.flagE (s : State) : Bool := s.fl.getLsbD Config.flagLayout.eBit

/-- `FL <- v`: all 8 bits (R32, R147). -/
def State.setFl (s : State) (v : Byte) : State := { s with fl := v }

/-- The values FL can hold: 0x00 before the first CMP, then exactly one flag (R33). -/
def flLegal (v : Byte) : Bool :=
  v == Config.rReset || v == bitMask Config.flagLayout.lBit || v == bitMask Config.flagLayout.gBit
    || v == bitMask Config.flagLayout.eBit

end Machine

end Sys2Proof
end

