-- ==== Sys2Proof/Syntax.lean ====
section
/-! DEFINITION. The 13 instructions (R83), one constructor for each row of spec/opcode_table.json. An operand is the
whole operand byte, not masked (R24, R82): a register operand of 8 to 255 is an instruction too, one that raises
OutOfRange when its handler uses the operand (R87). -/

namespace Sys2Proof

/-- An instruction: `a` = operand_a, `b` = operand_b, `imm` = LDI's immediate (R82, R83). -/
inductive Instr where
  | hlt
  | ldi (a imm : Byte)
  | prn (a : Byte)
  | add (a b : Byte)
  | mul (a b : Byte)
  | cmp (a b : Byte)
  | push (a : Byte)
  | pop (a : Byte)
  | call (a : Byte)
  | ret
  | jmp (a : Byte)
  | jeq (a : Byte)
  | jne (a : Byte)
  deriving DecidableEq, Repr

/-- Which of the 13 it is. -/
def Instr.mnemonic : Instr → Mnemonic
  | .hlt => .hlt
  | .ldi _ _ => .ldi
  | .prn _ => .prn
  | .add _ _ => .add
  | .mul _ _ => .mul
  | .cmp _ _ => .cmp
  | .push _ => .push
  | .pop _ => .pop
  | .call _ => .call
  | .ret => .ret
  | .jmp _ => .jmp
  | .jeq _ => .jeq
  | .jne _ => .jne

/-- The operand bytes that follow the opcode byte, in address order (R80, R57). -/
def Instr.operands : Instr → List Byte
  | .hlt | .ret => []
  | .prn a | .push a | .pop a | .call a | .jmp a | .jeq a | .jne a => [a]
  | .ldi a imm => [a, imm]
  | .add a b | .mul a b | .cmp a b => [a, b]

/-- The length in bytes, 1, 2 or 3 (R80, R85). -/
def Instr.length (i : Instr) : Nat := 1 + i.mnemonic.operandCount

end Sys2Proof
end

