-- ==== Sys2Proof/WellFormed.lean ====
section
/-! DEFINITION. Which instructions hold no reserved operand value (R87). The check is about the instruction's text:
the machine decodes and runs an ill-formed one too, and it raises OutOfRange where its handler uses the bad operand
(R24, entry 21). -/

namespace Sys2Proof

/-- The register operand bytes of an instruction, `opa` before `opb` (R82, R83). LDI's immediate is none. -/
def Instr.regOperands : Instr → List Byte
  | .hlt | .ret => []
  | .ldi a _ => [a]
  | .prn a | .push a | .pop a | .call a | .jmp a | .jeq a | .jne a => [a]
  | .add a b | .mul a b | .cmp a b => [a, b]

/-- "register indices are in 0–7" (R24): the values 8 to 255 of a register operand byte are reserved (R87). -/
def regOperandOk (a : Byte) : Bool := decide (a.toNat < Config.nRegs)

/-- Every register operand names one of the 8 registers. -/
def Instr.wellFormed (i : Instr) : Bool := i.regOperands.all regOperandOk

end Sys2Proof
end

