-- ==== Sys2Proof/Decode.lean ====
section
/-! DEFINITION. From bytes to instructions and back (R80 to R87). The decoder compares the whole opcode byte with the 13
assigned values (R84); it and the encoder take the assignment as a parameter (R83, D1), and the machine uses
`Config.opcodes`. -/

namespace Sys2Proof

/-- The opcode bytes `OPC_<mnemonic>` (R83). PRESUMED, entry 1: the source gives none; the spec's D1 takes the values of
the LS-8 family. -/
def Config.opcodes : OpcodeMap
  | .hlt => 0x01
  | .ldi => 0x82
  | .prn => 0x47
  | .add => 0xA0
  | .mul => 0xA2
  | .cmp => 0xA7
  | .push => 0x45
  | .pop => 0x46
  | .call => 0x50
  | .ret => 0x11
  | .jmp => 0x54
  | .jeq => 0x55
  | .jne => 0x56

/-- The field `NOPS`, bits 7:6 of an opcode byte (R81). -/
def opcodeNops (opc : Byte) : Nat := (opc.extractLsb' 6 2).toNat

/-- The field `ALU`, bit 5 of an opcode byte (R81, C1). -/
def opcodeAlu (opc : Byte) : Bool := opc.getLsbD 5

/-- The field `ID`, bits 3:0 of an opcode byte (R81). -/
def opcodeId (opc : Byte) : Nat := (opc.extractLsb' 0 4).toNat

/-- Why bytes are no instruction: the one reason there is (R86). -/
inductive DecodeError where
  /-- The opcode byte is none of the 13 (R86). -/
  | illegalInstruction (opc : Byte)
  deriving DecidableEq, Repr

/-- The mnemonic an opcode byte is assigned to, if any: whole-byte equality (R84). -/
def OpcodeMap.lookup (m : OpcodeMap) (opc : Byte) : Option Mnemonic :=
  Mnemonic.all.find? fun k => m k == opc

/-- The instruction of a mnemonic with the two latched operand bytes; a byte the format does not have is not examined
(R82, R87, R113). -/
def Mnemonic.assemble (k : Mnemonic) (opa opb : Byte) : Instr :=
  match k with
  | .hlt => .hlt
  | .ldi => .ldi opa opb
  | .prn => .prn opa
  | .add => .add opa opb
  | .mul => .mul opa opb
  | .cmp => .cmp opa opb
  | .push => .push opa
  | .pop => .pop opa
  | .call => .call opa
  | .ret => .ret
  | .jmp => .jmp opa
  | .jeq => .jeq opa
  | .jne => .jne opa

/-- Decoding under an opcode assignment: total on any three bytes, an unassigned opcode byte rejected by name (R84, R86). -/
def decodeWith (m : OpcodeMap) (opc opa opb : Byte) : Except DecodeError Instr :=
  match m.lookup opc with
  | some k => .ok (k.assemble opa opb)
  | none => .error (.illegalInstruction opc)

/-- CORE's decoder (R113). -/
def decode (opc opa opb : Byte) : Except DecodeError Instr := decodeWith Config.opcodes opc opa opb

/-- The bytes of an instruction under an opcode assignment, at ascending addresses (R57, R80). -/
def encodeWith (m : OpcodeMap) (i : Instr) : List Byte := m i.mnemonic :: i.operands

/-- CORE's encoding of an instruction. -/
def encode (i : Instr) : List Byte := encodeWith Config.opcodes i

/-- The `n` bytes of a number of `8 * n` bits, the most significant first: the opcode table writes an instruction as one
number with "the byte at pc most significant" (entry 16). -/
def bytesOfNumber (w : Nat) : Nat → List Byte
  | 0 => []
  | n + 1 => BitVec.ofNat 8 (w / 256 ^ n) :: bytesOfNumber w n

/-- The bytes of an instruction given as the table numbers its bits, with zeros above, up to the longest instruction. -/
def tableBytes (nbits w : Nat) : List Byte :=
  (bytesOfNumber w (nbits / 8) ++ List.replicate Config.maxIlen 0).take Config.maxIlen

/-- What the decoder reads from an instruction whose bits are `w`, numbered as spec/opcode_table.json numbers them. -/
def decodeTableWord (nbits w : Nat) : Option Instr :=
  match tableBytes nbits w with
  | [opc, opa, opb] => (decode opc opa opb).toOption
  | _ => none

end Sys2Proof
end

