-- ==== Sys2Proof/Machine/Ops.lean ====
section
/-! DEFINITION. The named operations over memory and registers (R11, R51, R52, R161), the fetch (R111), and taking a
fault, `raise`, as one shared operation (R198). There is no return from a fault but reset (R199). -/

namespace Sys2Proof.Machine

/-! ### Memory -/

/-- The canonical form of a memory: addresses strictly rising and inside MEM, and no cell listed that reads as an
unlisted one does. -/
abbrev Memory.wf (m : Memory) : Prop :=
  m.Pairwise (fun c d => c.1 < d.1) ∧ ∀ c ∈ m, c.1 < Config.memSize ∧ c.2 ≠ Config.memReset

/-- The byte of a cell; a cell not listed holds 0x00 (R50). -/
def Memory.read : Memory → Nat → Byte
  | [], _ => Config.memReset
  | (b, v) :: rest, a => if a = b then v else Memory.read rest a

/-- `m` with `v` in front at address `a`, unless `v` is what an unlisted cell reads as. -/
def Memory.put (a : Nat) (v : Byte) (m : Memory) : Memory :=
  if v = Config.memReset then m else (a, v) :: m

/-- `m` with `v` in cell `a`, kept in rising order. -/
def Memory.write : Memory → Nat → Byte → Memory
  | [], a, v => Memory.put a v []
  | (b, w) :: rest, a, v =>
    if a < b then Memory.put a v ((b, w) :: rest)
    else if a = b then Memory.put a v rest
    else (b, w) :: Memory.write rest a v

/-- Is an integer an address of MEM? -/
def inMem (addr : Int) : Bool := decide (0 ≤ addr ∧ addr < Config.memSize)

/-- `MemRead(addr, 1)` (R51): never wraps (R53). -/
def memRead (addr : Int) (s : State) : Res Byte :=
  if inMem addr then .ok (s.mem.read addr.toNat) else .error ⟨.outOfRange, addr⟩

/-- `MemWrite(addr, 1, v)` (R52): never wraps and never grows the store (R53). -/
def memWrite (addr : Int) (v : Byte) (s : State) : Res State :=
  if inMem addr then .ok { s with mem := s.mem.write addr.toNat v } else .error ⟨.outOfRange, addr⟩

/-! ### Registers and the program counter -/

/-- `x[i]` of a checked index (R21). -/
def State.reg (s : State) (i : Fin Config.nRegs) : Byte := s.regs[i]

/-- `x[i] <- v` of a checked index (R21). -/
def State.setReg (s : State) (i : Fin Config.nRegs) (v : Byte) : State := { s with regs := s.regs.set i v }

/-- `SP`, an alias of `x[7]` (R22). -/
def State.sp (s : State) : Byte := s.reg Config.spIndex

/-- `pc <- t`. -/
def State.setPc (s : State) (t : Nat) : State := { s with pc := t }

/-- `pc <- pc + n`, which does not wrap (R27, R28). -/
def State.advance (s : State) (n : Nat) : State := s.setPc (s.pc + n)

/-- `OUT <- OUT ++ [v]` (R11, R36). -/
def State.emit (s : State) (v : Byte) : State := { s with out := s.out ++ [v] }

/-- `RUN <- v`. -/
def State.setRun (s : State) (v : RunState) : State := { s with run := v }

/-- The stack-pointer update law (R161): `x[7] + d` is computed as an integer; outside 0 to 255 it raises OutOfRange of
that integer and does not wrap (entry 9). -/
def spAdjust (d : Int) (s : State) : Res State :=
  let v : Int := (s.sp.toNat : Int) + d
  if 0 ≤ v ∧ v ≤ 255 then .ok (s.setReg Config.spIndex (BitVec.ofInt 8 v)) else .error ⟨.outOfRange, v⟩

/-! ### Fetch -/

/-- The three bytes of one fetch, `opc`, `opa`, `opb` (R38). -/
structure Latches where
  opc : Byte
  opa : Byte
  opb : Byte
  deriving DecidableEq, Repr

/-- The fetch (R111): three reads at `pc`, `pc + 1`, `pc + 2`, in that order, in every step, each range-checked (R112). -/
def fetch (s : State) : Res Latches := do
  let opc ← memRead s.pc s
  let opa ← memRead (s.pc + 1) s
  let opb ← memRead (s.pc + 2) s
  pure ⟨opc, opa, opb⟩

/-- Fetch and decode (R110, R113, R114): the instruction the step executes, or the fault it raises before any handler. -/
def fetchDecode (s : State) : Res Instr := do
  let l ← fetch s
  match decode l.opc l.opa l.opb with
  | .ok i => pure i
  | .error (.illegalInstruction opc) => .error ⟨.illegalInstruction, opc.toNat⟩

/-- What a read of `addr` gives where there is such a cell. -/
def peek (addr : Nat) (s : State) : Option Byte := (memRead addr s).toOption

/-! ### Taking a fault -/

/-- The numeric cause codes (R194). DESIGN CHOICE of the spec, D11, entry 22. -/
def FaultCause.code : FaultCause → Nat
  | .outOfRange => 1
  | .unsupportedOperation => 2
  | .illegalInstruction => 3

/-- The cause a host reads as an integer: 0 while there is no fault (R194). -/
def State.faultCode (s : State) : Nat :=
  match s.fault with
  | none => 0
  | some r => r.cause.code

/-- `raise <Cause>(info)` (R198): FAULT is written (R195), RUN becomes FAULTED, and nothing else changes (R196). The
latched bytes are those at `pc`, `pc + 1`, `pc + 2`, each valid only if the fetch could read it (D24, entry 5). -/
def raise (e : Raise) (s : State) : State :=
  { s with
    run := .faulted
    fault := some
      { cause := e.cause, pc := s.pc, opc := peek s.pc s, opa := peek (s.pc + 1) s, opb := peek (s.pc + 2) s,
        info := e.info } }

/-- The end of a handler: its writes all happen, or, where it met a `raise`, none of them does and the fault is taken from
the state before the instruction (R115 a, R196). -/
def commit (s : State) : Res State → Outcome
  | .ok t => .next t
  | .error e => .next (raise e s)

/-- Why a state has no step (R12, R110): HALTED and FAULTED are terminal. -/
def noStep (s : State) : Option Fault :=
  match s.run with
  | .running => none
  | .halted => some .halted
  | .faulted => some .faulted

/-- Bytes put into the cells from `a` up, those past the end of MEM dropped: how a test places an instruction. -/
def placeBytes : List Byte → Nat → State → State
  | [], _, s => s
  | v :: rest, a, s =>
    placeBytes rest (a + 1) (if a < Config.memSize then { s with mem := s.mem.write a v } else s)

end Sys2Proof.Machine
end

