-- ==== Sys2Proof/Machine/Operands.lean ====
section
/-! DEFINITION. The operand forms (R82): a register operand, whose whole byte is the index, and LDI's immediate, whose
whole byte is the value. There is no address operand and no displacement. -/

namespace Sys2Proof.Machine

/-- The register a register operand names: no masking, 8 or more raises OutOfRange of the byte (R24, D20). -/
def regIndex (a : Byte) : Res (Fin Config.nRegs) :=
  if h : a.toNat < Config.nRegs then .ok ⟨a.toNat, h⟩ else .error ⟨.outOfRange, a.toNat⟩

/-- The value of an immediate operand: the byte unchanged, not extended (R82 b). -/
def immediate (imm : Byte) : Byte := imm

end Sys2Proof.Machine
end

