-- ==== Sys2Proof/Machine/Alu.lean ====
section
/-! DEFINITION. The ALU as a block (R140 to R144) and the instructions ADD, MUL and CMP (R145 to R147). -/

namespace Sys2Proof.Machine

/-- What the ALU's selector input can be: one of the closed set, or an identifier it does not know (R140, R144,
entry 14). -/
inductive AluSelector where
  | add
  | mul
  | cmp
  | unrecognized (id : Int)
  deriving DecidableEq, Repr

/-- The ALU's outputs (R140): for ADD and MUL only `result` is meaningful, for CMP only `flags`. -/
structure AluOutput where
  result : Byte
  flags : Byte
  deriving DecidableEq, Repr

/-- `apply(op, a_value, b_value)` (R140): stateless. ADD R141, MUL R142, CMP R143, any other selector R144. The output an
operation leaves open is a free value (entry 13). -/
def aluApply (op : AluSelector) (a b : Byte) : Res AluOutput :=
  match op with
  | .add => .ok ⟨a + b, Config.aluAddFlags a b⟩
  | .mul => .ok ⟨a * b, Config.aluMulFlags a b⟩
  | .cmp => .ok ⟨Config.aluCmpResult a b, cmpFlags a b⟩
  | .unrecognized id => .error ⟨.unsupportedOperation, id⟩

/-- ADD Ra,Rb (R145). -/
def execAdd (a b : Byte) (s : State) : Outcome := commit s do
  let i ← regIndex a
  let j ← regIndex b
  let o ← aluApply .add (s.reg i) (s.reg j)
  pure ((s.setReg i o.result).advance 3)

/-- MUL Ra,Rb (R146). -/
def execMul (a b : Byte) (s : State) : Outcome := commit s do
  let i ← regIndex a
  let j ← regIndex b
  let o ← aluApply .mul (s.reg i) (s.reg j)
  pure ((s.setReg i o.result).advance 3)

/-- CMP Ra,Rb (R147): FL, and no general register. -/
def execCmp (a b : Byte) (s : State) : Outcome := commit s do
  let i ← regIndex a
  let j ← regIndex b
  let o ← aluApply .cmp (s.reg i) (s.reg j)
  pure ((s.setFl o.flags).advance 3)

end Sys2Proof.Machine
end

