-- ==== Sys2Proof/Machine/Stack.lean ====
section
/-! DEFINITION. The stack (R160, R161) and PUSH, POP (R162 to R165). The statements of a rule are performed in the order
written, each reading what the earlier ones wrote (D14, entry 10). -/

namespace Sys2Proof.Machine

/-- `x[7] <- x[7] - 1; MemWrite(x[7], 1, v)`, `v` read from the decremented state (R160, R162, R170). -/
def stackPush (v : State → Byte) (s : State) : Res State := do
  let t ← spAdjust (-1) s
  memWrite t.sp.toNat (v t) t

/-- `MemRead(x[7], 1)`: the byte at the stack pointer, which stays in memory (R160). -/
def stackTop (s : State) : Res Byte := memRead s.sp.toNat s

/-- PUSH Ra (R162); `PUSH R7` stores the decremented stack pointer (R164). -/
def execPush (a : Byte) (s : State) : Outcome := commit s do
  let i ← regIndex a
  let t ← stackPush (fun t => t.reg i) s
  pure (t.advance 2)

/-- POP Ra (R163): the increment reads `x[7]` after the write of `x[a]`, so `POP R7` ends with the popped byte plus one
(R165). -/
def execPop (a : Byte) (s : State) : Outcome := commit s do
  let i ← regIndex a
  let v ← stackTop s
  let t ← spAdjust 1 (s.setReg i v)
  pure (t.advance 2)

end Sys2Proof.Machine
end

