-- ==== Sys2Proof/Machine/Control.lean ====
section
/-! DEFINITION. Control transfer: CALL, RET, JMP, JEQ, JNE (R170 to R178). A target is a whole byte (R175). -/

namespace Sys2Proof.Machine

/-- `pc <- x[a]`, the index checked first (R172). -/
def jumpTo (a : Byte) (s : State) : Res State := do
  let i ← regIndex a
  pure (s.setPc (s.reg i).toNat)

/-- CALL Ra (R170): pushes `pc + 2`; the target is read after the decrement (D14). In a step `pc ≤ 253`, so `pc + 2` is a
byte as it stands (entry 6). -/
def execCall (a : Byte) (s : State) : Outcome := commit s do
  let i ← regIndex a
  let t ← stackPush (fun t => BitVec.ofNat 8 (t.pc + 2)) s
  pure (t.setPc (t.reg i).toNat)

/-- RET (R171). -/
def execRet (s : State) : Outcome := commit s do
  let target ← stackTop s
  let t ← spAdjust 1 s
  pure (t.setPc target.toNat)

/-- JMP Ra (R172). -/
def execJmp (a : Byte) (s : State) : Outcome := commit s (jumpTo a s)

/-- JEQ Ra (R173): the operand is examined only when the jump is taken. -/
def execJeq (a : Byte) (s : State) : Outcome := commit s (if s.flagE then jumpTo a s else pure (s.advance 2))

/-- JNE Ra (R174): the operand is examined only when the jump is taken. -/
def execJne (a : Byte) (s : State) : Outcome := commit s (if s.flagE then pure (s.advance 2) else jumpTo a s)

end Sys2Proof.Machine
end

