-- ==== Sys2Proof/Machine/Halt.lean ====
section
/-! DEFINITION. HLT (R116), the only halt condition (R117). -/

namespace Sys2Proof.Machine

/-- HLT (R116): RUN only; `pc` keeps the address of the HLT byte (D12, entry 11). -/
def execHlt (s : State) : Outcome := commit s (pure (s.setRun .halted))

end Sys2Proof.Machine
end

