-- ==== Sys2Proof/Machine/LoadOutput.lean ====
section
/-! DEFINITION. Load immediate and output: LDI (R130) and PRN (R131). -/

namespace Sys2Proof.Machine

/-- LDI Ra,imm (R130). -/
def execLdi (a imm : Byte) (s : State) : Outcome := commit s do
  let i ← regIndex a
  pure ((s.setReg i (immediate imm)).advance 3)

/-- PRN Ra (R131): the byte value goes to OUT; its decimal rendering is the host's (R36). -/
def execPrn (a : Byte) (s : State) : Outcome := commit s do
  let i ← regIndex a
  pure ((s.emit (s.reg i)).advance 2)

end Sys2Proof.Machine
end

