-- ==== Sys2Proof/Machine/Step.lean ====
section
/-! DEFINITION. One step (R12, R110): fetch, decode, dispatch, handler, as one transition. -/

namespace Sys2Proof.Machine

/-- A step exists only when RUN = RUNNING (R12); a fetch or decode fault is taken like any other (R112, R114, R198). -/
def step (s : State) : Host.Outcome State Fault Refusal :=
  match noStep s with
  | some f => .fault f
  | none =>
    match fetchDecode s with
    | .error e => .next (raise e s)
    | .ok i => exec i s

/-- `s` with the instruction of an opcode-table word stored where `step` fetches: at `pc`, `pc + 1`, `pc + 2` (entry 15). -/
def State.withFetchWord (s : State) (nbits w : Nat) : State := placeBytes (tableBytes nbits w) s.pc s

end Sys2Proof.Machine
end

