-- ==== Sys2Proof/Machine/HostSide.lean ====
section
/-! DEFINITION. CORE's side of the host's interface (R222): reset with program load (R64, R220), the rendering of OUT
(R36), the optional trace (R206), and the two notations the spec records for a test bench, the program text (R89) and
the mnemonic form (R88). No instruction uses any of it (entry 20). -/

namespace Sys2Proof.Machine

/-! ### Reset and load -/

/-- The program's bytes written through MemWrite to ascending addresses, in order (R64). -/
def loadFrom : List Byte → Nat → State → Res State
  | [], _, s => .ok s
  | b :: rest, a, s => do
    let t ← memWrite a b s
    loadFrom rest (a + 1) t

/-- Reset with a program, from any state and always to the same result (R220, D22); a program of more than 256 bytes is
refused with OutOfRange and no run starts (R64, R191 row 5, D19). -/
def hostReset (_before : State) (program : List Byte) : Res State :=
  loadFrom program Config.loadBase State.reset

/-! ### The output channel -/

/-- One value as the host prints it: the shortest decimal numeral and a line feed (R36, D15). -/
def renderByte (v : Byte) : List Char := Nat.toDigits 10 v.toNat ++ ['\n']

/-- The text of OUT (R36). -/
def renderOut (out : List Byte) : List Char := out.flatMap renderByte

/-! ### The trace -/

/-- What one trace line shows (R206); its text is not given (N5). A byte past the end of MEM is `none`: the trace's reads
are not fetches and must not fault. -/
structure TraceLine where
  pc : Nat
  atPc : Option Byte
  atPc1 : Option Byte
  atPc2 : Option Byte
  regs : Vector Byte 8
  deriving DecidableEq, Repr

/-- The trace of a state (R206): it reads, and changes nothing. -/
def trace (s : State) : TraceLine := ⟨s.pc, peek s.pc s, peek (s.pc + 1) s, peek (s.pc + 2) s, s.regs⟩

/-! ### Program text -/

/-- What one line of program text is (R89). -/
inductive TextLine where
  /-- A blank line, or a comment only. -/
  | ignored
  /-- One instruction byte. -/
  | value (v : Byte)
  /-- Neither: a loader-side error (R64). -/
  | malformed
  deriving DecidableEq, Repr

/-- A base-2 numeral continued from the value `acc`. -/
def readBinary : List Char → Nat → Option Nat
  | [], acc => some acc
  | c :: rest, acc =>
    if c = '0' then readBinary rest (2 * acc) else if c = '1' then readBinary rest (2 * acc + 1) else none

/-- One line: the text before a `#`, without white space at its ends, is empty or a base-2 literal of a byte (R89,
entry 20). -/
def readLine (line : List Char) : TextLine :=
  let body := ((line.takeWhile (· ≠ '#')).dropWhile Char.isWhitespace).reverse.dropWhile Char.isWhitespace
  if body.isEmpty then .ignored
  else
    match readBinary body.reverse 0 with
    | some n => if n ≤ 255 then .value (BitVec.ofNat 8 n) else .malformed
    | none => .malformed

/-- The bytes of a program's lines, none where a line is malformed: "the core never sees partially-decoded bytes" (R64). -/
def readProgram : List (List Char) → Option (List Byte)
  | [] => some []
  | line :: rest =>
    match readLine line with
    | .ignored => readProgram rest
    | .value v => (readProgram rest).map (v :: ·)
    | .malformed => none

/-! ### Mnemonic form -/

/-- A mnemonic's name (R88). -/
def mnemonicName : Mnemonic → String
  | .hlt => "HLT"
  | .ldi => "LDI"
  | .prn => "PRN"
  | .add => "ADD"
  | .mul => "MUL"
  | .cmp => "CMP"
  | .push => "PUSH"
  | .pop => "POP"
  | .call => "CALL"
  | .ret => "RET"
  | .jmp => "JMP"
  | .jeq => "JEQ"
  | .jne => "JNE"

/-- A register operand's name. -/
def regName (a : Byte) : String := "R" ++ toString a.toNat

/-- An instruction as the source writes it, immediates in decimal (R88). -/
def listing (i : Instr) : String :=
  let name := mnemonicName i.mnemonic
  match i with
  | .hlt | .ret => name
  | .ldi a imm => name ++ " " ++ regName a ++ "," ++ toString imm.toNat
  | .prn a | .push a | .pop a | .call a | .jmp a | .jeq a | .jne a => name ++ " " ++ regName a
  | .add a b | .mul a b | .cmp a b => name ++ " " ++ regName a ++ "," ++ regName b

end Sys2Proof.Machine
end

