-- ==== Sys2Proof/Safety.lean ====
section
/-! DEFINITION. What counts as a safe run, in the terms claims use: the invariant of the states a run reaches, the fault
conditions of R197 written apart from the handlers, runs and their ends (R119). -/

namespace Sys2Proof.Machine

/-- What holds of every state a run reaches: MEM in canonical form (256 cells, each defined, R50), pc in 0 to 256 (R28),
FL one of its legal values (R33), FAULT valid exactly in FAULTED (R35), and then about the instruction at pc (R196) and
not UnsupportedOperation (R192). -/
structure Inv (s : State) : Prop where
  memWf : s.mem.wf
  pcRange : s.pc ≤ Config.memSize
  flLegal : flLegal s.fl = true
  faultValid : s.run = .faulted ↔ s.fault.isSome = true
  faultPc : ∀ r, s.fault = some r → r.pc = s.pc
  faultCause : ∀ r, s.fault = some r → r.cause ≠ .unsupportedOperation

/-- R197 points 3 and 4: what a used register operand raises. -/
def indexRaise (a : Byte) : Option Raise :=
  if a.toNat < Config.nRegs then none else some ⟨.outOfRange, a.toNat⟩

/-- The `raise` a handler meets first, in the order of R197 points 3 to 5 (R191 rows 2 to 4); `none` where the instruction
completes. -/
def handlerRaise (i : Instr) (s : State) : Option Raise :=
  match i with
  | .hlt => none
  | .ldi a _ | .prn a | .jmp a => indexRaise a
  | .add a b | .mul a b | .cmp a b => (indexRaise a).or (indexRaise b)
  | .push a | .call a => (indexRaise a).or (if s.sp = 0 then some ⟨.outOfRange, -1⟩ else none)
  | .pop a =>
    (indexRaise a).or
      (if (if a = 7 then s.mem.read s.sp.toNat else s.sp) = 255 then some ⟨.outOfRange, 256⟩ else none)
  | .ret => if s.sp = 255 then some ⟨.outOfRange, 256⟩ else none
  | .jeq a => if s.flagE then indexRaise a else none
  | .jne a => if s.flagE then none else indexRaise a

/-- The `raise` a step meets first, in the whole order of R197, in a state with `pc ≤ 256`. -/
def stepRaise (s : State) : Option Raise :=
  if 253 < s.pc then some ⟨.outOfRange, 256⟩
  else
    match decode (s.mem.read s.pc) (s.mem.read (s.pc + 1)) (s.mem.read (s.pc + 2)) with
    | .error (.illegalInstruction opc) => some ⟨.illegalInstruction, opc.toNat⟩
    | .ok i => handlerRaise i s

/-- `x[a]` of an operand byte below 8; 0 for an operand that names no register. -/
def regAt (s : State) (a : Byte) : Byte := if h : a.toNat < Config.nRegs then s.reg ⟨a.toNat, h⟩ else 0

/-- R27's table: the `pc` an instruction leaves where it completes. CALL reads its register after the decrement (R170). -/
def nextPc (i : Instr) (s : State) : Nat :=
  match i with
  | .hlt => s.pc
  | .ldi _ _ | .add _ _ | .mul _ _ | .cmp _ _ => s.pc + 3
  | .prn _ | .push _ | .pop _ => s.pc + 2
  | .call a => if a = 7 then s.sp.toNat - 1 else (regAt s a).toNat
  | .ret => (s.mem.read s.sp.toNat).toNat
  | .jmp a => (regAt s a).toNat
  | .jeq a => if s.flagE then (regAt s a).toNat else s.pc + 2
  | .jne a => if s.flagE then s.pc + 2 else (regAt s a).toNat

/-- R23's table, the column "writes": the indices of the registers an instruction may write. -/
def writtenRegs : Instr → List Nat
  | .hlt | .prn _ | .cmp _ _ | .jmp _ | .jeq _ | .jne _ => []
  | .ldi a _ | .add a _ | .mul a _ => [a.toNat]
  | .push _ | .call _ | .ret => [7]
  | .pop a => [a.toNat, 7]

/-- Every register but those listed is unchanged from `s` to `t`. -/
def SameRegsBut (w : List Nat) (s t : State) : Prop := ∀ j : Fin Config.nRegs, j.val ∉ w → t.reg j = s.reg j

/-- Every byte of memory reads in `t` as in `s`. -/
def SameMem (s t : State) : Prop := ∀ x, t.mem.read x = s.mem.read x

/-- Every byte of memory but the one at `a` reads in `t` as in `s`. -/
def SameMemBut (a : Nat) (s t : State) : Prop := ∀ x, x ≠ a → t.mem.read x = s.mem.read x

/-- FL, RUN, FAULT and OUT are unchanged from `s` to `t`. -/
def SameControl (s t : State) : Prop := t.fl = s.fl ∧ t.run = s.run ∧ t.fault = s.fault ∧ t.out = s.out

/-- The states a run goes through (R119). -/
inductive Reaches (s : State) : State → Prop where
  | start : Reaches s s
  | step {t u : State} : Reaches s t → Machine.step t = .next u → Reaches s u

/-- "A run has ended when RUN is HALTED or FAULTED" (R119). -/
def Ended (s : State) : Prop := s.run ≠ .running

/-- The run from `s` ends HALTED, a normal end (R119). -/
def HaltsFrom (s : State) : Prop := ∃ t, Reaches s t ∧ t.run = .halted

/-- The run from `s` meets no fault: no state of it is FAULTED (R119: an error end). -/
def SafeFrom (s : State) : Prop := ∀ t, Reaches s t → t.run ≠ .faulted

end Sys2Proof.Machine
end

