-- ==== Sys2Proof/Certificates/Slice0/Obligations.lean ====
section
/-! DEFINITION. The statements for the provers. "Spec's decision D<n>" marks what 92_eei_decisions.md decides where the
source is silent; "entry <n>" is a row of the assumption log. -/

open Sys2Proof Sys2Proof.Machine

/-! ### Encoding -/

/-- One word of every instruction, written from R83's table bit by bit, decodes to it (the opcode bytes: entry 1). -/
def Obligations.WrittenOutWordsDecode : Prop :=
  decode 0b00000001 0xAA 0xBB = .ok .hlt ∧
  decode 0b10000010 0b00000011 0b11111111 = .ok (.ldi 3 255) ∧
  decode 0b01000111 0b00000111 0xC3 = .ok (.prn 7) ∧
  decode 0b10100000 0b00000000 0b00000001 = .ok (.add 0 1) ∧
  decode 0b10100010 0b00000010 0b00000101 = .ok (.mul 2 5) ∧
  decode 0b10100111 0b00000110 0b00000100 = .ok (.cmp 6 4) ∧
  decode 0b01000101 0b00000010 0x46 = .ok (.push 2) ∧
  decode 0b01000110 0b00000001 0xA0 = .ok (.pop 1) ∧
  decode 0b01010000 0b00000001 0x01 = .ok (.call 1) ∧
  decode 0b00010001 0x00 0x00 = .ok .ret ∧
  decode 0b01010100 0b00000010 0x00 = .ok (.jmp 2) ∧
  decode 0b01010101 0b00001001 0x56 = .ok (.jeq 9) ∧
  decode 0b01010110 0b00000011 0x01 = .ok (.jne 3)

/-- Under EVERY opcode assignment that meets the side conditions of R81 and R83 (D1: "a claim can quantify over any
assignment"), decoding the encoding of any instruction gives it back, whatever bytes follow it in the fetch (R87). -/
def Obligations.DecodeOfEncodeUnderEveryAssignment : Prop :=
  ∀ (m : OpcodeMap), m.Valid → ∀ (i : Instr) (u v : Byte),
    ∃ opc opa opb rest, encodeWith m i ++ [u, v] = opc :: opa :: opb :: rest ∧ decodeWith m opc opa opb = .ok i

/-- What the decoder answers encodes back to the bytes it read: no bit of the instruction is ignored or invented. -/
def Obligations.EncodeOfDecodeIsTheBytesRead : Prop :=
  ∀ (m : OpcodeMap) (opc opa opb : Byte) (i : Instr), decodeWith m opc opa opb = .ok i →
    encodeWith m i = [opc, opa, opb].take i.length

/-- R84: whole-byte equality; at most one mnemonic matches; the operand bytes take no part in selecting; an unassigned
byte is rejected, by name. -/
def Obligations.DecodingComparesTheWholeOpcodeByte : Prop :=
  ∀ (m : OpcodeMap), m.Valid → ∀ (opc opa opb : Byte),
    (∀ k, (∃ i, decodeWith m opc opa opb = .ok i ∧ i.mnemonic = k) ↔ opc = m k) ∧
    (∀ j k, opc = m j → opc = m k → j = k) ∧
    (decodeWith m opc opa opb = .error (.illegalInstruction opc) ↔ ∀ k, opc ≠ m k)

/-- The instruction of an opcode-table word, placed where the machine fetches, is what the next step runs (entries 15, 16). -/
def Obligations.PlacedTableWordIsWhatStepRuns : Prop :=
  ∀ (s : State) (nbits w : Nat) (i : Instr), s.mem.wf → s.run = .running → s.pc ≤ 253 →
    decodeTableWord nbits w = some i → step (s.withFetchWord nbits w) = exec i (s.withFetchWord nbits w)

/-! ### Memory -/

/-- R51, whole. -/
def Obligations.MemReadReturnsTheCellOrRaises : Prop :=
  ∀ (addr : Int) (s : State),
    memRead addr s = if 0 ≤ addr ∧ addr ≤ 255 then .ok (s.mem.read addr.toNat) else .error ⟨.outOfRange, addr⟩

/-- R52, whole: the addressed cell and no other, or the fault. `s.mem.wf` is the model's canonical form, kept by every step
(StepKeepsTheInvariant). -/
def Obligations.MemWriteChangesOneCellOrRaises : Prop :=
  ∀ (addr : Int) (v : Byte) (s : State), s.mem.wf →
    (0 ≤ addr ∧ addr ≤ 255 →
      ∃ t, memWrite addr v s = .ok t ∧ t.mem.read addr.toNat = v ∧ SameMemBut addr.toNat s t ∧
        t = { s with mem := t.mem }) ∧
    (¬ (0 ≤ addr ∧ addr ≤ 255) → memWrite addr v s = .error ⟨.outOfRange, addr⟩)

/-- The canonical form is canonical: two memories in it that read the same everywhere are the same data. -/
def Obligations.CanonicalMemoriesThatReadAlikeAreEqual : Prop :=
  ∀ m m' : Memory, m.wf → m'.wf → (∀ x, m.read x = m'.read x) → m = m'

/-! ### The ALU -/

/-- R141: the sum modulo 256, and no fault on overflow. -/
def Obligations.AluAddIsTheSumModulo256 : Prop :=
  ∀ a b : Byte, ∃ o, aluApply .add a b = .ok o ∧ o.result.toNat = (a.toNat + b.toNat) % 256

/-- R142: the low byte of the product, and no fault on overflow. -/
def Obligations.AluMulIsTheProductModulo256 : Prop :=
  ∀ a b : Byte, ∃ o, aluApply .mul a b = .ok o ∧ o.result.toNat = (a.toNat * b.toNat) % 256

/-- CMP sets exactly one of the three flags, as an unsigned comparison (spec's decision D21, entry 19), and clears every
other bit, for EVERY admissible placing of the flags (spec's decision D3, entry 2); CORE's ALU uses the adopted one. -/
def Obligations.CompareSetsExactlyOneFlag : Prop :=
  (∀ (k : FlagLayout), k.Valid → ∀ a b : Byte,
    ((cmpFlagsWith k a b).getLsbD k.eBit = true ↔ a.toNat = b.toNat) ∧
    ((cmpFlagsWith k a b).getLsbD k.gBit = true ↔ b.toNat < a.toNat) ∧
    ((cmpFlagsWith k a b).getLsbD k.lBit = true ↔ a.toNat < b.toNat) ∧
    ∀ n, n ≠ k.eBit → n ≠ k.gBit → n ≠ k.lBit → (cmpFlagsWith k a b).getLsbD n = false) ∧
  ∀ a b : Byte, ∃ o, aluApply .cmp a b = .ok o ∧
    o.flags = if a.toNat = b.toNat then 0x01 else if b.toNat < a.toNat then 0x02 else 0x04

/-- Any other selector raises UnsupportedOperation with the selector (spec's decision D16; the selector's type: entry 14). -/
def Obligations.AluRejectsEveryOtherSelector : Prop :=
  ∀ (id : Int) (a b : Byte), aluApply (.unrecognized id) a b = .error ⟨.unsupportedOperation, id⟩

/-! ### Registers and the stack pointer -/

/-- A register operand is the whole byte: below 8 it names that register, from 8 on it raises, and no bit is masked off
(spec's decision D20, which says the source requires it). -/
def Obligations.RegisterOperandIsNotMasked : Prop :=
  ∀ a : Byte, (∀ h : a.toNat < 8, regIndex a = .ok ⟨a.toNat, h⟩) ∧
    (8 ≤ a.toNat → regIndex a = .error ⟨.outOfRange, a.toNat⟩)

/-- R161's law, a decision of the spec (D8, entry 9): the implicit updates do not wrap. -/
def Obligations.StackPointerUpdateDoesNotWrap : Prop :=
  ∀ s : State,
    (s.sp.toNat = 0 → spAdjust (-1) s = .error ⟨.outOfRange, -1⟩) ∧
    (s.sp.toNat = 255 → spAdjust 1 s = .error ⟨.outOfRange, 256⟩) ∧
    (1 ≤ s.sp.toNat → ∃ t, spAdjust (-1) s = .ok t ∧ t.sp.toNat = s.sp.toNat - 1 ∧ SameRegsBut [7] s t ∧
      t = { s with regs := t.regs }) ∧
    (s.sp.toNat ≤ 254 → ∃ t, spAdjust 1 s = .ok t ∧ t.sp.toNat = s.sp.toNat + 1 ∧ SameRegsBut [7] s t ∧
      t = { s with regs := t.regs })

/-! ### What each instruction does (result, frame and where it raises) -/

/-- HLT: RUN only; pc unchanged is the spec's decision D12 (entry 11). -/
def Obligations.HltSetsRunAndNothingElse : Prop :=
  ∀ s : State, exec .hlt s = .next { s with run := .halted }

/-- LDI: the immediate unchanged, into x[a] and nothing else but pc. -/
def Obligations.LdiLoadsTheImmediate : Prop :=
  ∀ (a imm : Byte) (s : State),
    (8 ≤ a.toNat → exec (.ldi a imm) s = .next (raise ⟨.outOfRange, a.toNat⟩ s)) ∧
    (∀ h : a.toNat < 8, ∃ t, exec (.ldi a imm) s = .next t ∧ t.reg ⟨a.toNat, h⟩ = imm ∧ SameRegsBut [a.toNat] s t ∧
      t.pc = s.pc + 3 ∧ SameMem s t ∧ SameControl s t)

/-- PRN: one value appended to OUT (spec's decision D15 on what the channel carries, entry 25). -/
def Obligations.PrnAppendsTheRegisterToOut : Prop :=
  ∀ (a : Byte) (s : State),
    (8 ≤ a.toNat → exec (.prn a) s = .next (raise ⟨.outOfRange, a.toNat⟩ s)) ∧
    (∀ h : a.toNat < 8, ∃ t, exec (.prn a) s = .next t ∧ t.out = s.out ++ [s.reg ⟨a.toNat, h⟩] ∧ SameRegsBut [] s t ∧
      t.pc = s.pc + 2 ∧ SameMem s t ∧ t.fl = s.fl ∧ t.run = s.run ∧ t.fault = s.fault)

/-- ADD: the sum modulo 256 of the old values, into x[a]; FL untouched; opa is checked before opb (spec's decision D10). -/
def Obligations.AddWritesTheSumModulo256 : Prop :=
  ∀ (a b : Byte) (s : State),
    (8 ≤ a.toNat → exec (.add a b) s = .next (raise ⟨.outOfRange, a.toNat⟩ s)) ∧
    (a.toNat < 8 → 8 ≤ b.toNat → exec (.add a b) s = .next (raise ⟨.outOfRange, b.toNat⟩ s)) ∧
    (∀ (h : a.toNat < 8) (k : b.toNat < 8), ∃ t, exec (.add a b) s = .next t ∧
      (t.reg ⟨a.toNat, h⟩).toNat = ((s.reg ⟨a.toNat, h⟩).toNat + (s.reg ⟨b.toNat, k⟩).toNat) % 256 ∧
      SameRegsBut [a.toNat] s t ∧ t.pc = s.pc + 3 ∧ SameMem s t ∧ SameControl s t)

/-- MUL: the product modulo 256 of the old values, into x[a]; FL untouched; opa is checked before opb (spec's decision D10). -/
def Obligations.MulWritesTheProductModulo256 : Prop :=
  ∀ (a b : Byte) (s : State),
    (8 ≤ a.toNat → exec (.mul a b) s = .next (raise ⟨.outOfRange, a.toNat⟩ s)) ∧
    (a.toNat < 8 → 8 ≤ b.toNat → exec (.mul a b) s = .next (raise ⟨.outOfRange, b.toNat⟩ s)) ∧
    (∀ (h : a.toNat < 8) (k : b.toNat < 8), ∃ t, exec (.mul a b) s = .next t ∧
      (t.reg ⟨a.toNat, h⟩).toNat = ((s.reg ⟨a.toNat, h⟩).toNat * (s.reg ⟨b.toNat, k⟩).toNat) % 256 ∧
      SameRegsBut [a.toNat] s t ∧ t.pc = s.pc + 3 ∧ SameMem s t ∧ SameControl s t)

/-- CMP: all 8 bits of FL, from an unsigned comparison (spec's decisions D3, D21), and no register. -/
def Obligations.CmpWritesFlAndNoRegister : Prop :=
  ∀ (a b : Byte) (s : State),
    (8 ≤ a.toNat → exec (.cmp a b) s = .next (raise ⟨.outOfRange, a.toNat⟩ s)) ∧
    (a.toNat < 8 → 8 ≤ b.toNat → exec (.cmp a b) s = .next (raise ⟨.outOfRange, b.toNat⟩ s)) ∧
    (∀ (h : a.toNat < 8) (k : b.toNat < 8), ∃ t, exec (.cmp a b) s = .next t ∧
      t.fl = (if s.reg ⟨a.toNat, h⟩ = s.reg ⟨b.toNat, k⟩ then 0b00000001
        else if (s.reg ⟨b.toNat, k⟩).toNat < (s.reg ⟨a.toNat, h⟩).toNat then 0b00000010 else 0b00000100) ∧
      SameRegsBut [] s t ∧ t.pc = s.pc + 3 ∧ SameMem s t ∧ t.run = s.run ∧ t.fault = s.fault ∧ t.out = s.out)

/-- PUSH, register 7 included (it stores the decremented pointer: spec's decision D14); the address stored to is the
stack pointer after `spAdjust (-1)`; the raise at a stack pointer of 0 is D8's. -/
def Obligations.PushStoresBelowTheStackPointer : Prop :=
  ∀ (a : Byte) (s : State),
    (8 ≤ a.toNat → exec (.push a) s = .next (raise ⟨.outOfRange, a.toNat⟩ s)) ∧
    (a.toNat < 8 → s.sp.toNat = 0 → exec (.push a) s = .next (raise ⟨.outOfRange, -1⟩ s)) ∧
    (∀ (h : a.toNat < 8) (d : State), s.mem.wf → spAdjust (-1) s = .ok d →
      ∃ t, exec (.push a) s = .next t ∧ d.sp.toNat + 1 = s.sp.toNat ∧ t.sp = d.sp ∧ SameRegsBut [7] s t ∧
        t.mem.read d.sp.toNat = (if a.toNat = 7 then d.sp else s.reg ⟨a.toNat, h⟩) ∧ SameMemBut d.sp.toNat s t ∧
        t.pc = s.pc + 2 ∧ SameControl s t)

/-- POP into a register other than 7: the byte at the stack pointer, which stays in memory, then the increment; the raise
at 255 is D8's. -/
def Obligations.PopLoadsFromTheStackPointer : Prop :=
  ∀ (a : Byte) (s : State), a.toNat ≠ 7 →
    (8 ≤ a.toNat → exec (.pop a) s = .next (raise ⟨.outOfRange, a.toNat⟩ s)) ∧
    (a.toNat < 8 → s.sp.toNat = 255 → exec (.pop a) s = .next (raise ⟨.outOfRange, 256⟩ s)) ∧
    (∀ h : a.toNat < 8, s.sp.toNat ≤ 254 → ∃ t, exec (.pop a) s = .next t ∧
      t.reg ⟨a.toNat, h⟩ = s.mem.read s.sp.toNat ∧ t.sp.toNat = s.sp.toNat + 1 ∧ SameRegsBut [a.toNat, 7] s t ∧
      t.pc = s.pc + 2 ∧ SameMem s t ∧ SameControl s t)

/-- `POP R7`: the popped byte plus one, or the raise where that byte is 255 (spec's decisions D8, D14). -/
def Obligations.PopIntoTheStackPointerAddsOne : Prop :=
  ∀ s : State,
    (s.mem.read s.sp.toNat = 255 → exec (.pop 7) s = .next (raise ⟨.outOfRange, 256⟩ s)) ∧
    (s.mem.read s.sp.toNat ≠ 255 → ∃ t, exec (.pop 7) s = .next t ∧
      t.sp.toNat = (s.mem.read s.sp.toNat).toNat + 1 ∧ SameRegsBut [7] s t ∧ t.pc = s.pc + 2 ∧ SameMem s t ∧
      SameControl s t)

/-- CALL in a state a step can run it in (`pc ≤ 253`): pushes `pc + 2` and jumps; `CALL R7` jumps to the decremented pointer
(spec's decision D14); the raise at a stack pointer of 0 is D8's, and the index is checked first (D10). -/
def Obligations.CallPushesTheReturnAddressAndJumps : Prop :=
  ∀ (a : Byte) (s : State),
    (8 ≤ a.toNat → exec (.call a) s = .next (raise ⟨.outOfRange, a.toNat⟩ s)) ∧
    (a.toNat < 8 → s.sp.toNat = 0 → exec (.call a) s = .next (raise ⟨.outOfRange, -1⟩ s)) ∧
    (∀ (h : a.toNat < 8) (d : State), s.mem.wf → s.pc ≤ 253 → spAdjust (-1) s = .ok d →
      ∃ t, exec (.call a) s = .next t ∧ d.sp.toNat + 1 = s.sp.toNat ∧ t.sp = d.sp ∧ SameRegsBut [7] s t ∧
        (t.mem.read d.sp.toNat).toNat = s.pc + 2 ∧ SameMemBut d.sp.toNat s t ∧
        t.pc = (if a.toNat = 7 then d.sp else s.reg ⟨a.toNat, h⟩).toNat ∧ SameControl s t)

/-- RET: pc from the byte at the stack pointer, then the increment; the raise at 255 is D8's. -/
def Obligations.RetPopsTheProgramCounter : Prop :=
  ∀ s : State,
    (s.sp.toNat = 255 → exec .ret s = .next (raise ⟨.outOfRange, 256⟩ s)) ∧
    (s.sp.toNat ≤ 254 → ∃ t, exec .ret s = .next t ∧ t.pc = (s.mem.read s.sp.toNat).toNat ∧
      t.sp.toNat = s.sp.toNat + 1 ∧ SameRegsBut [7] s t ∧ SameMem s t ∧ SameControl s t)

/-- JMP: pc and nothing else. -/
def Obligations.JmpLoadsTheProgramCounter : Prop :=
  ∀ (a : Byte) (s : State),
    (8 ≤ a.toNat → exec (.jmp a) s = .next (raise ⟨.outOfRange, a.toNat⟩ s)) ∧
    (∀ h : a.toNat < 8, exec (.jmp a) s = .next { s with pc := (s.reg ⟨a.toNat, h⟩).toNat })

/-- JEQ: taken exactly when E is set; the operand is examined only then (spec's decision D14); pc and nothing else. -/
def Obligations.JeqJumpsWhenEqual : Prop :=
  ∀ (a : Byte) (s : State),
    (s.flagE = true → 8 ≤ a.toNat → exec (.jeq a) s = .next (raise ⟨.outOfRange, a.toNat⟩ s)) ∧
    (s.flagE = true → ∀ h : a.toNat < 8, exec (.jeq a) s = .next { s with pc := (s.reg ⟨a.toNat, h⟩).toNat }) ∧
    (s.flagE = false → exec (.jeq a) s = .next { s with pc := s.pc + 2 })

/-- JNE: taken exactly when E is clear; the operand is examined only then (spec's decision D14); pc and nothing else. -/
def Obligations.JneJumpsWhenNotEqual : Prop :=
  ∀ (a : Byte) (s : State),
    (s.flagE = false → 8 ≤ a.toNat → exec (.jne a) s = .next (raise ⟨.outOfRange, a.toNat⟩ s)) ∧
    (s.flagE = false → ∀ h : a.toNat < 8, exec (.jne a) s = .next { s with pc := (s.reg ⟨a.toNat, h⟩).toNat }) ∧
    (s.flagE = true → exec (.jne a) s = .next { s with pc := s.pc + 2 })

/-! ### Rules over all instructions -/

/-- R197 points 3 to 5, one order for every instruction (spec's decision D10, entry 8): the first check that fails is the
fault taken. -/
def Obligations.HandlersRaiseTheFirstFailingCheck : Prop :=
  ∀ (i : Instr) (s : State) (e : Raise), handlerRaise i s = some e → exec i s = .next (raise e s)

/-- Every instruction whose checks pass completes, leaves FAULT alone, leaves RUN alone unless it is HLT, and leaves the pc
of R27's table (its HLT row is the spec's decision D12, its CALL row D14). -/
def Obligations.EveryInstructionCompletesWithItsNextPc : Prop :=
  ∀ (i : Instr) (s : State), handlerRaise i s = none →
    ∃ t, exec i s = .next t ∧ t.pc = nextPc i s ∧ t.fault = s.fault ∧
      t.run = if i.mnemonic = .hlt then .halted else s.run

/-- No instruction writes a register that R23's table does not give it, in any state, faulting or not. -/
def Obligations.RegistersNotInTheTableAreUnchanged : Prop :=
  ∀ (i : Instr) (s t : State), exec i s = .next t → SameRegsBut (writtenRegs i) s t

/-- Only PUSH and CALL store, one byte, at the stack pointer after the decrement; every other byte of memory reads as
before, for every instruction, faulting or not. -/
def Obligations.OnlyPushAndCallStoreAndOneByte : Prop :=
  ∀ (i : Instr) (s t : State), exec i s = .next t →
    match i with
    | .push _ | .call _ => ∀ x, (∀ d, spAdjust (-1) s = .ok d → x ≠ d.sp.toNat) → t.mem.read x = s.mem.read x
    | _ => SameMem s t

/-- R32, whole: FL is written by CMP alone, all of it and from the operands alone; and no instruction's outcome depends on
FL but through the equal flag, which JEQ and JNE alone read. -/
def Obligations.OnlyCmpWritesFlAndOnlyJumpsReadIt : Prop :=
  (∀ (i : Instr) (s t : State), exec i s = .next t → i.mnemonic ≠ .cmp → t.fl = s.fl) ∧
  (∀ (a b : Byte) (s : State) (h : a.toNat < 8) (k : b.toNat < 8), ∃ t, exec (.cmp a b) s = .next t ∧
    t.fl = cmpFlags (s.reg ⟨a.toNat, h⟩) (s.reg ⟨b.toNat, k⟩)) ∧
  (∀ (i : Instr) (s : State) (v : Byte),
    (i.mnemonic = .jeq ∨ i.mnemonic = .jne → (s.setFl v).flagE = s.flagE) →
    ∃ t u, exec i s = .next t ∧ exec i (s.setFl v) = .next u ∧ u.setFl 0 = t.setFl 0)

/-- OUT is written by PRN alone, which appends one value; "nothing else writes" it (spec's decision D15 on what it
carries). -/
def Obligations.OnlyPrnWritesOut : Prop :=
  ∀ (i : Instr) (s t : State), exec i s = .next t →
    t.out = s.out ∨ (i.mnemonic = .prn ∧ ∃ v, t.out = s.out ++ [v])

/-- For every state and every operand byte exactly one of JEQ and JNE with that operand is taken: JEQ where E is set, JNE
where E is clear; the other goes to `pc + 2`. The one taken goes to `x[a]` for an operand below 8 and raises `OutOfRange(a)`
from 8 on; that the one not taken does not examine its operand is the spec's decision D14 (entry 10). -/
def Obligations.ExactlyOneOfJeqAndJneIsTaken : Prop :=
  ∀ (a : Byte) (s : State),
    (∀ h : a.toNat < 8,
      (s.flagE = true →
        exec (.jeq a) s = .next (s.setPc (s.reg ⟨a.toNat, h⟩).toNat) ∧ exec (.jne a) s = .next (s.advance 2)) ∧
      (s.flagE = false →
        exec (.jeq a) s = .next (s.advance 2) ∧ exec (.jne a) s = .next (s.setPc (s.reg ⟨a.toNat, h⟩).toNat))) ∧
    (8 ≤ a.toNat →
      (s.flagE = true →
        exec (.jeq a) s = .next (raise ⟨.outOfRange, a.toNat⟩ s) ∧ exec (.jne a) s = .next (s.advance 2)) ∧
      (s.flagE = false →
        exec (.jeq a) s = .next (s.advance 2) ∧ exec (.jne a) s = .next (raise ⟨.outOfRange, a.toNat⟩ s)))

/-! ### The step -/

/-- A step runs the decoded instruction, and adds nothing around it (R110, R113). It holds for every instruction the
decoder answers, the well-formed ones among them. -/
def Obligations.StepRunsTheDecodedInstruction : Prop :=
  ∀ (s : State) (i : Instr), s.run = .running → s.pc ≤ 253 →
    decode (s.mem.read s.pc) (s.mem.read (s.pc + 1)) (s.mem.read (s.pc + 2)) = .ok i → step s = exec i s

/-- The cycle as R110's pseudocode gives it. Three of its clauses are not the source's: the fault where a byte of the fetch
lies above 255 is the spec's decision D6 (entry 18), IllegalInstruction for a byte that is no opcode is D4 (entry 12), and that
an ended state has no step is the model's outcome Fault.halted or Fault.faulted (entry 4; the state FAULTED is D11). -/
def Obligations.StepFollowsTheCycle : Prop :=
  ∀ s : State,
    (s.run = .halted → step s = .fault .halted) ∧ (s.run = .faulted → step s = .fault .faulted) ∧
    (s.run = .running →
      (255 < s.pc → step s = .next (raise ⟨.outOfRange, s.pc⟩ s)) ∧
      (s.pc + 1 = 256 → step s = .next (raise ⟨.outOfRange, s.pc + 1⟩ s)) ∧
      (s.pc + 2 = 256 → step s = .next (raise ⟨.outOfRange, s.pc + 2⟩ s)) ∧
      (s.pc + 2 < 256 →
        (∀ i, decode (s.mem.read s.pc) (s.mem.read (s.pc + 1)) (s.mem.read (s.pc + 2)) = .ok i → step s = exec i s) ∧
        ((∀ k, s.mem.read s.pc ≠ Config.opcodes k) →
          step s = .next (raise ⟨.illegalInstruction, (s.mem.read s.pc).toNat⟩ s))))

/-- R197, the whole order (spec's decision D10, entry 8): a running state's step takes the first fault of the order, and
where there is none it does not fault. `pc ≤ 256` is part of the invariant (StepKeepsTheInvariant). -/
def Obligations.StepTakesTheFirstFaultOfTheOrder : Prop :=
  ∀ s : State, s.run = .running → s.pc ≤ 256 →
    (∀ e, stepRaise s = some e → step s = .next (raise e s)) ∧
    (stepRaise s = none → ∃ t, step s = .next t ∧ t.run ≠ .faulted ∧ t.fault = s.fault)

/-- R12: every running state has a step, and it is a next state: nothing is refused. -/
def Obligations.EveryRunningStateHasANextState : Prop :=
  ∀ s : State, s.run = .running → ∃ t, step s = .next t

/-- R117: the halt condition is the dispatched opcode byte being HLT's, and a halted machine takes no step. That nothing is
dispatched with pc above 253, so a HLT at 254 or 255 does not halt, is the spec's decision D6 (entry 18); that no step is taken
is the model's outcome Fault.halted (entry 4). -/
def Obligations.HaltConditionIsTheHltOpcode : Prop :=
  (∀ s t : State, s.run = .running → step s = .next t →
    (t.run = .halted ↔ s.pc ≤ 253 ∧ s.mem.read s.pc = Config.opcodes .hlt)) ∧
  ∀ s : State, s.run = .halted → step s = .fault .halted

/-- pc passes the top of memory in one way only: a three-byte instruction at 253 leaves 256, and stays 256 only by the
fault of the next fetch (spec's decision D7, entry 18). -/
def Obligations.ProgramCounterPassesTheTopOnlyFrom253 : Prop :=
  ∀ s t : State, s.run = .running → s.pc ≤ 256 → step s = .next t → t.pc ≤ 256 ∧
    (t.pc = 256 →
      (s.pc = 256 ∧ t.run = .faulted) ∨
      (s.pc = 253 ∧ ∃ i, decode (s.mem.read 253) (s.mem.read 254) (s.mem.read 255) = .ok i ∧ i.length = 3))

/-! ### Faults -/

/-- `raise` changes RUN and FAULT and nothing else (spec's decision D9, entry 7), and records the cause, pc and info. -/
def Obligations.RaiseChangesRunAndFaultOnly : Prop :=
  ∀ (e : Raise) (s : State),
    raise e s = { s with run := .faulted, fault := (raise e s).fault } ∧
    ∃ r, (raise e s).fault = some r ∧ r.cause = e.cause ∧ r.pc = s.pc ∧ r.info = e.info

/-- A step that faults has no effect but RUN and FAULT, whatever instruction it was in (spec's decision D9, entry 7). -/
def Obligations.FaultingStepHasNoOtherEffect : Prop :=
  ∀ s t : State, s.run = .running → step s = .next t → t.run = .faulted →
    t = { s with run := .faulted, fault := t.fault } ∧ ∃ r, t.fault = some r ∧ r.pc = s.pc

/-- The latched bytes of the record (spec's decision D24): all three valid where the fetch succeeded, and at a fetch fault
only those already read. -/
def Obligations.FaultRecordHoldsTheBytesFetched : Prop :=
  ∀ (s t : State) (r : FaultRecord), s.run = .running → s.pc ≤ 256 → step s = .next t → t.run = .faulted →
    t.fault = some r →
    (s.pc ≤ 253 → r.opc = some (s.mem.read s.pc) ∧ r.opa = some (s.mem.read (s.pc + 1)) ∧
      r.opb = some (s.mem.read (s.pc + 2))) ∧
    (s.pc = 254 → r.opc = some (s.mem.read 254) ∧ r.opa = some (s.mem.read 255) ∧ r.opb = none) ∧
    (s.pc = 255 → r.opc = some (s.mem.read 255) ∧ r.opa = none ∧ r.opb = none) ∧
    (s.pc = 256 → r.opc = none ∧ r.opa = none ∧ r.opb = none)

/-- No step takes UnsupportedOperation (spec's decision D16): a fault a step takes has one of the other two causes. -/
def Obligations.NoStepRaisesUnsupportedOperation : Prop :=
  ∀ (s t : State) (r : FaultRecord), step s = .next t → t.run = .faulted → t.fault = some r →
    r.cause = .outOfRange ∨ r.cause = .illegalInstruction

/-! ### Reset and load -/

/-- The reset state: the values of R40 (x[0] to x[6] and FL are the spec's decision D13, entry 3). -/
def Obligations.ResetLeavesTheTableOfValues : Prop :=
  (∀ x, State.reset.mem.read x = 0x00) ∧ (∀ j : Fin 8, State.reset.reg j = if j = 7 then 0xF4 else 0x00) ∧
  State.reset.pc = 0 ∧ State.reset.fl = 0x00 ∧ State.reset.run = .running ∧ State.reset.fault = none ∧
  State.reset.out = []

/-- Loading a program of at most 256 bytes puts byte k in cell k, leaves every later cell 0x00, and everything else at
its reset value, whatever the state before (spec's decisions D19, D22). -/
def Obligations.LoadPlacesTheProgramFromAddressZero : Prop :=
  ∀ (s : State) (program : List Byte), program.length ≤ 256 →
    ∃ t, hostReset s program = .ok t ∧ (∀ k, t.mem.read k = program.getD k 0x00) ∧
      t = { State.reset with mem := t.mem }

/-- A longer program is refused with OutOfRange(256), and no run starts (spec's decision D19). -/
def Obligations.LoadRefusesALongProgram : Prop :=
  ∀ (s : State) (program : List Byte), 256 < program.length →
    hostReset s program = .error ⟨.outOfRange, 256⟩

/-! ### Laws of two instructions -/

/-- The push-pop law, with the preconditions the spec derives, register 7 included. For register 7 the cell then holds the
decremented pointer and the POP restores the pointer by adding one to it: the order of the effects is the spec's decision D14
(entry 10). -/
def Obligations.PushThenPopRestores : Prop :=
  ∀ (s : State) (a : Byte) (h : a.toNat < 8), s.mem.wf → s.run = .running → s.pc ≤ 251 → 1 ≤ s.sp.toNat →
    s.mem.read s.pc = Config.opcodes .push → s.mem.read (s.pc + 1) = a →
    s.mem.read (s.pc + 2) = Config.opcodes .pop → s.mem.read (s.pc + 3) = a →
    (s.sp.toNat - 1 < s.pc ∨ s.pc + 3 < s.sp.toNat - 1) →
    ∃ t u, step s = .next t ∧ step t = .next u ∧ SameRegsBut [] s u ∧ u.pc = s.pc + 4 ∧ SameControl s u ∧
      SameMemBut (s.sp.toNat - 1) s u ∧
      u.mem.read (s.sp.toNat - 1) = if a.toNat = 7 then s.sp - 1 else s.reg ⟨a.toNat, h⟩

/-- The call-return law: after a CALL and a subroutine that reaches a RET with the stack pointer where CALL left it and the
return address still in its cell, pc is the instruction after the CALL and the stack pointer is the caller's. -/
def Obligations.CallThenReturnComesBack : Prop :=
  ∀ (s : State) (a : Byte) (h : a.toNat < 8), a.toNat ≠ 7 → s.mem.wf → s.run = .running → s.pc ≤ 253 → 1 ≤ s.sp.toNat →
    s.mem.read s.pc = Config.opcodes .call → s.mem.read (s.pc + 1) = a →
    ∃ t, step s = .next t ∧ t.pc = (s.reg ⟨a.toNat, h⟩).toNat ∧
      ∀ u : State, u.run = .running → u.pc ≤ 253 → u.mem.read u.pc = Config.opcodes .ret → u.sp = t.sp →
        u.mem.read (s.sp.toNat - 1) = t.mem.read (s.sp.toNat - 1) →
        ∃ v, step u = .next v ∧ v.pc = s.pc + 2 ∧ v.sp = s.sp ∧ (v.mem.read (s.sp.toNat - 1)).toNat = s.pc + 2

/-- A store into the instruction stream is seen by the very next fetch: a PUSH whose cell is the byte after it leaves the
pushed value as the next opcode fetched. -/
def Obligations.StoreIntoCodeIsSeenByTheNextFetch : Prop :=
  ∀ (s : State) (a : Byte) (h : a.toNat < 8), a.toNat ≠ 7 → s.mem.wf → s.run = .running → s.pc ≤ 251 →
    s.mem.read s.pc = Config.opcodes .push → s.mem.read (s.pc + 1) = a → s.sp.toNat = s.pc + 3 →
    ∃ t l, step s = .next t ∧ fetch t = .ok l ∧ l.opc = s.reg ⟨a.toNat, h⟩

/-! ### Invariants -/

/-- The reset state meets the invariant, with or without a program. -/
def Obligations.ResetMeetsTheInvariant : Prop :=
  Inv State.reset ∧ ∀ (s t : State) (program : List Byte), hostReset s program = .ok t → Inv t

/-- Every step keeps the invariant: MEM in canonical form, pc in 0 to 256, FL one of its four values (its bits: spec's
decision D3), FAULT valid exactly in FAULTED, about the instruction at pc and never UnsupportedOperation. -/
def Obligations.StepKeepsTheInvariant : Prop :=
  ∀ s t : State, Inv s → step s = .next t → Inv t

/-- Every state a run goes through, from a reset with any program, meets the invariant. -/
def Obligations.EveryReachableStateMeetsTheInvariant : Prop :=
  ∀ (s t u : State) (program : List Byte), hostReset s program = .ok t → Reaches t u → Inv u

/-! ### Runs -/

/-- In HALTED and FAULTED all state is kept: a run that has ended goes nowhere. -/
def Obligations.AnEndedRunStaysAsItIs : Prop :=
  ∀ s t : State, Ended s → Reaches s t → t = s

/-- Nothing a run does clears or changes what OUT holds: it only grows at its end (spec's decision D15 on what it carries). -/
def Obligations.OutOnlyGrowsInARun : Prop :=
  ∀ s t : State, Reaches s t → s.out <+: t.out

/-- A run that ends HALTED never meets a fault: FAULTED "is never a final (successful) state" (the state FAULTED is the
spec's decision D11). -/
def Obligations.ARunThatHaltsNeverFaults : Prop :=
  ∀ s : State, HaltsFrom s → SafeFrom s
end

