-- ==== Sys2Proof/Laws/Decode.lean ====
section
/-! SUPPORT. The small lemmas of the decoder. -/

namespace Sys2Proof

theorem Mnemonic.mem_all (k : Mnemonic) : k ∈ Mnemonic.all := by cases k <;> decide

/-- An opcode byte that is found is the one assigned. -/
theorem OpcodeMap.lookup_some {m : OpcodeMap} {opc : Byte} {k : Mnemonic} (h : m.lookup opc = some k) : m k = opc := by
  simpa using List.find?_some h

/-- An opcode byte that is not found is assigned to no mnemonic. -/
theorem OpcodeMap.lookup_none {m : OpcodeMap} {opc : Byte} : m.lookup opc = none ↔ ∀ k, m k ≠ opc := by
  simp [OpcodeMap.lookup, Mnemonic.mem_all]

/-- Every mnemonic's own byte is found again, since no other has it (R84: "at most one matches"). -/
theorem OpcodeMap.lookup_self {m : OpcodeMap} (h : m.Valid) (k : Mnemonic) : m.lookup (m k) = some k := by
  cases hk : m.lookup (m k) with
  | none => exact absurd rfl (OpcodeMap.lookup_none.mp hk k)
  | some j => rw [h.distinct j k (OpcodeMap.lookup_some hk)]

/-- The adopted opcode bytes meet the side conditions of R81 and R83. -/
theorem Config.opcodes_valid : OpcodeMap.Valid Config.opcodes where
  distinct j k := by cases j <;> cases k <;> decide
  nops k := by cases k <;> decide
  alu k := by cases k <;> decide

@[simp] theorem Mnemonic.assemble_mnemonic (k : Mnemonic) (a b : Byte) : (k.assemble a b).mnemonic = k := by
  cases k <;> rfl

end Sys2Proof
end

