-- ==== Sys2Proof/Laws/Memory.lean ====
section
/-! SUPPORT. The laws of memory: a read after a write, and that every memory operation keeps the canonical form. -/

namespace Sys2Proof.Machine

/-- A cell below every listed address reads as an unlisted one. -/
theorem Memory.read_of_lt {m : Memory} {a : Nat} (h : ∀ c ∈ m, a < c.1) : Memory.read m a = Config.memReset := by
  induction m with
  | nil => rfl
  | cons c rest ih =>
    obtain ⟨b, v⟩ := c
    have hb : a < b := h (b, v) (by simp)
    rw [Memory.read, if_neg (by omega)]
    exact ih fun c hc => h c (by simp [hc])

/-- The value just written is the value read (R51, R52). -/
theorem Memory.read_write_self {m : Memory} (h : m.Pairwise (fun c d => c.1 < d.1)) (a : Nat) (v : Byte) :
    (m.write a v).read a = v := by
  induction m with
  | nil => by_cases hv : v = Config.memReset <;> simp_all [Memory.write, Memory.put, Memory.read]
  | cons c rest ih =>
    obtain ⟨b, w⟩ := c
    obtain ⟨hb, hrest⟩ := List.pairwise_cons.mp h
    have low : ∀ x, x ≤ b → Memory.read rest x = Config.memReset := fun x hx =>
      Memory.read_of_lt fun c hc => Nat.lt_of_le_of_lt hx (hb c hc)
    unfold Memory.write
    split
    · next hab =>
      by_cases hv : v = Config.memReset
      · simp only [Memory.put, hv, if_true, Memory.read]
        rw [if_neg (by omega), low a (by omega)]
      · rw [Memory.put, if_neg hv, Memory.read, if_pos rfl]
    · split
      · next hab =>
        by_cases hv : v = Config.memReset
        · simp only [Memory.put, hv, if_true]
          rw [low a (by omega)]
        · rw [Memory.put, if_neg hv, Memory.read, if_pos rfl]
      · next hab =>
        rw [Memory.read, if_neg hab, ih hrest]

/-- A write changes no other cell (R52, R54). -/
theorem Memory.read_write_ne (m : Memory) {a x : Nat} (v : Byte) (h : x ≠ a) : (m.write a v).read x = m.read x := by
  have put_ne : ∀ m : Memory, (Memory.put a v m).read x = m.read x := by
    intro m
    unfold Memory.put
    split
    · rfl
    · rw [Memory.read, if_neg h]
  induction m with
  | nil => exact put_ne []
  | cons c rest ih =>
    obtain ⟨b, w⟩ := c
    unfold Memory.write
    split
    · exact put_ne _
    · split
      · next hab => rw [put_ne, Memory.read, if_neg (by omega)]
      · rw [Memory.read, Memory.read, ih]

/-- Every cell a write lists was listed before or is the one written. -/
theorem Memory.mem_write {m : Memory} {a : Nat} {v : Byte} {c : Host.Cell} (h : c ∈ m.write a v) :
    c ∈ m ∨ (c = (a, v) ∧ v ≠ Config.memReset) := by
  have put_mem : ∀ m : Memory, c ∈ Memory.put a v m → c ∈ m ∨ (c = (a, v) ∧ v ≠ Config.memReset) := by
    intro m hc
    unfold Memory.put at hc
    split at hc
    · exact .inl hc
    · next hv => exact (List.mem_cons.mp hc).elim (fun e => .inr ⟨e, hv⟩) .inl
  induction m with
  | nil => exact put_mem [] h
  | cons d rest ih =>
    obtain ⟨b, w⟩ := d
    unfold Memory.write at h
    split at h
    · exact put_mem _ h
    · split at h
      · exact (put_mem _ h).imp_left (List.mem_cons_of_mem _)
      · rcases List.mem_cons.mp h with e | hc
        · exact .inl (e ▸ List.mem_cons_self)
        · exact (ih hc).imp_left (List.mem_cons_of_mem _)

/-- A write inside MEM keeps the canonical form. -/
theorem Memory.write_wf {m : Memory} (h : m.wf) {a : Nat} (ha : a < Config.memSize) (v : Byte) : (m.write a v).wf := by
  refine ⟨?_, fun c hc => ?_⟩
  · have hp := h.1
    clear h
    induction m with
    | nil => unfold Memory.write Memory.put; split <;> simp
    | cons d rest ih =>
      obtain ⟨b, w⟩ := d
      obtain ⟨hb, hrest⟩ := List.pairwise_cons.mp hp
      have put_sorted : ∀ l : Memory, l.Pairwise (fun c d => c.1 < d.1) → (∀ c ∈ l, a < c.1) →
          (Memory.put a v l).Pairwise (fun c d => c.1 < d.1) := by
        intro l hl hlow
        unfold Memory.put
        split
        · exact hl
        · exact List.pairwise_cons.mpr ⟨hlow, hl⟩
      unfold Memory.write
      split
      · next hab =>
        refine put_sorted _ hp fun c hc => ?_
        rcases List.mem_cons.mp hc with e | hc
        · rw [e]; exact hab
        · exact Nat.lt_trans hab (hb c hc)
      · split
        · next hab => exact put_sorted _ hrest fun c hc => hab ▸ hb c hc
        · next hlt hne =>
          refine List.pairwise_cons.mpr ⟨fun c hc => ?_, ih hrest⟩
          rcases Memory.mem_write hc with hc | ⟨rfl, -⟩
          · exact hb c hc
          · change b < a; omega
  · rcases Memory.mem_write hc with hc | ⟨rfl, hv⟩
    · exact h.2 c hc
    · exact ⟨ha, hv⟩

theorem Memory.nil_wf : Memory.wf [] := ⟨.nil, fun _ h => absurd h List.not_mem_nil⟩

end Sys2Proof.Machine
end

