-- ==== Sys2Proof/Laws/State.lean ====
section
/-! SUPPORT. One lemma for each field and each update of State, so that no later proof unfolds a record update. -/

namespace Sys2Proof.Machine

variable (s : State) (i j : Fin Config.nRegs) (v : Byte) (n : Nat) (r : RunState) (e : Raise)

/-! ### setReg -/

@[simp] theorem State.setReg_mem : (s.setReg i v).mem = s.mem := rfl
@[simp] theorem State.setReg_pc : (s.setReg i v).pc = s.pc := rfl
@[simp] theorem State.setReg_fl : (s.setReg i v).fl = s.fl := rfl
@[simp] theorem State.setReg_run : (s.setReg i v).run = s.run := rfl
@[simp] theorem State.setReg_fault : (s.setReg i v).fault = s.fault := rfl
@[simp] theorem State.setReg_out : (s.setReg i v).out = s.out := rfl
@[simp] theorem State.setReg_flagE : (s.setReg i v).flagE = s.flagE := rfl

@[simp] theorem State.reg_setReg_self : (s.setReg i v).reg i = v := by
  simp [State.reg, State.setReg]

theorem State.reg_setReg_ne (h : j ≠ i) : (s.setReg i v).reg j = s.reg j := by
  simp only [State.reg, State.setReg, Fin.getElem_fin, Vector.getElem_set]
  rw [if_neg fun hij => h (Fin.ext hij.symm)]

theorem State.reg_setReg : (s.setReg i v).reg j = if j = i then v else s.reg j := by
  split
  · next h => rw [h, State.reg_setReg_self]
  · next h => exact State.reg_setReg_ne s i j v h

/-! ### setPc and advance -/

@[simp] theorem State.setPc_mem : (s.setPc n).mem = s.mem := rfl
@[simp] theorem State.setPc_regs : (s.setPc n).regs = s.regs := rfl
@[simp] theorem State.setPc_reg : (s.setPc n).reg i = s.reg i := rfl
@[simp] theorem State.setPc_sp : (s.setPc n).sp = s.sp := rfl
@[simp] theorem State.setPc_pc : (s.setPc n).pc = n := rfl
@[simp] theorem State.setPc_fl : (s.setPc n).fl = s.fl := rfl
@[simp] theorem State.setPc_run : (s.setPc n).run = s.run := rfl
@[simp] theorem State.setPc_fault : (s.setPc n).fault = s.fault := rfl
@[simp] theorem State.setPc_out : (s.setPc n).out = s.out := rfl

@[simp] theorem State.advance_mem : (s.advance n).mem = s.mem := rfl
@[simp] theorem State.advance_regs : (s.advance n).regs = s.regs := rfl
@[simp] theorem State.advance_reg : (s.advance n).reg i = s.reg i := rfl
@[simp] theorem State.advance_sp : (s.advance n).sp = s.sp := rfl
@[simp] theorem State.advance_pc : (s.advance n).pc = s.pc + n := rfl
@[simp] theorem State.advance_fl : (s.advance n).fl = s.fl := rfl
@[simp] theorem State.advance_run : (s.advance n).run = s.run := rfl
@[simp] theorem State.advance_fault : (s.advance n).fault = s.fault := rfl
@[simp] theorem State.advance_out : (s.advance n).out = s.out := rfl

/-! ### emit -/

@[simp] theorem State.emit_mem : (s.emit v).mem = s.mem := rfl
@[simp] theorem State.emit_regs : (s.emit v).regs = s.regs := rfl
@[simp] theorem State.emit_reg : (s.emit v).reg i = s.reg i := rfl
@[simp] theorem State.emit_pc : (s.emit v).pc = s.pc := rfl
@[simp] theorem State.emit_fl : (s.emit v).fl = s.fl := rfl
@[simp] theorem State.emit_run : (s.emit v).run = s.run := rfl
@[simp] theorem State.emit_fault : (s.emit v).fault = s.fault := rfl
@[simp] theorem State.emit_out : (s.emit v).out = s.out ++ [v] := rfl

/-! ### setFl -/

@[simp] theorem State.setFl_mem : (s.setFl v).mem = s.mem := rfl
@[simp] theorem State.setFl_regs : (s.setFl v).regs = s.regs := rfl
@[simp] theorem State.setFl_reg : (s.setFl v).reg i = s.reg i := rfl
@[simp] theorem State.setFl_sp : (s.setFl v).sp = s.sp := rfl
@[simp] theorem State.setFl_pc : (s.setFl v).pc = s.pc := rfl
@[simp] theorem State.setFl_fl : (s.setFl v).fl = v := rfl
@[simp] theorem State.setFl_run : (s.setFl v).run = s.run := rfl
@[simp] theorem State.setFl_fault : (s.setFl v).fault = s.fault := rfl
@[simp] theorem State.setFl_out : (s.setFl v).out = s.out := rfl

/-! ### setRun -/

@[simp] theorem State.setRun_mem : (s.setRun r).mem = s.mem := rfl
@[simp] theorem State.setRun_regs : (s.setRun r).regs = s.regs := rfl
@[simp] theorem State.setRun_reg : (s.setRun r).reg i = s.reg i := rfl
@[simp] theorem State.setRun_pc : (s.setRun r).pc = s.pc := rfl
@[simp] theorem State.setRun_fl : (s.setRun r).fl = s.fl := rfl
@[simp] theorem State.setRun_run : (s.setRun r).run = r := rfl
@[simp] theorem State.setRun_fault : (s.setRun r).fault = s.fault := rfl
@[simp] theorem State.setRun_out : (s.setRun r).out = s.out := rfl

/-! ### raise -/

@[simp] theorem raise_mem : (raise e s).mem = s.mem := rfl
@[simp] theorem raise_regs : (raise e s).regs = s.regs := rfl
@[simp] theorem raise_reg : (raise e s).reg i = s.reg i := rfl
@[simp] theorem raise_sp : (raise e s).sp = s.sp := rfl
@[simp] theorem raise_pc : (raise e s).pc = s.pc := rfl
@[simp] theorem raise_fl : (raise e s).fl = s.fl := rfl
@[simp] theorem raise_run : (raise e s).run = .faulted := rfl
@[simp] theorem raise_out : (raise e s).out = s.out := rfl
@[simp] theorem raise_fault :
    (raise e s).fault =
      some ⟨e.cause, s.pc, peek s.pc s, peek (s.pc + 1) s, peek (s.pc + 2) s, e.info⟩ := rfl

end Sys2Proof.Machine
end

