-- ==== Sys2Proof/Laws/Ops.lean ====
section
/-! SUPPORT. One lemma for each shared operation that says everything it can do; later proofs cite it instead of unfolding
the operation. -/

namespace Sys2Proof.Machine

/-! ### Except, as the handlers use it -/

@[simp] theorem res_ok_bind {α β : Type} (a : α) (f : α → Res β) : ((Except.ok a : Res α) >>= f) = f a := rfl
@[simp] theorem res_error_bind {α β : Type} (e : Raise) (f : α → Res β) :
    ((Except.error e : Res α) >>= f) = Except.error e := rfl
@[simp] theorem res_pure {α : Type} (a : α) : (pure a : Res α) = Except.ok a := rfl

/-- A bind that answers a value: both halves do. -/
theorem res_bind_ok {α β : Type} {x : Res α} {f : α → Res β} {b : β} :
    (x >>= f) = Except.ok b ↔ ∃ a, x = Except.ok a ∧ f a = Except.ok b := by
  cases x <;> simp

@[simp] theorem commit_ok (s t : State) : commit s (.ok t) = .next t := rfl
@[simp] theorem commit_error (s : State) (e : Raise) : commit s (.error e) = .next (raise e s) := rfl

/-- Everything `commit` can do: the handler's state, or the fault taken from the state before it (R196). -/
theorem commit_cases {s t : State} {r : Res State} (h : commit s r = .next t) :
    r = .ok t ∨ ∃ e, r = .error e ∧ t = raise e s := by
  cases r with
  | ok u => exact .inl (by simpa using h)
  | error e => exact .inr ⟨e, rfl, by simpa using h.symm⟩

/-- `commit` always answers a next state. -/
theorem commit_next (s : State) (r : Res State) : ∃ t, commit s r = .next t := by
  cases r <;> simp

/-! ### Memory accesses -/

@[simp] theorem inMem_iff (addr : Int) : inMem addr = true ↔ 0 ≤ addr ∧ addr < 256 := by simp [inMem]

theorem memRead_nat {a : Nat} (h : a < Config.memSize) (s : State) : memRead a s = .ok (s.mem.read a) := by
  have hi : inMem (a : Int) = true := (inMem_iff _).mpr (by simp at h; omega)
  rw [memRead, if_pos hi]
  simp

theorem memRead_nat_out {a : Nat} (h : Config.memSize ≤ a) (s : State) :
    memRead a s = .error ⟨.outOfRange, a⟩ := by
  have hi : ¬ inMem (a : Int) = true := fun hi => by
    have := (inMem_iff _).mp hi
    simp at h
    omega
  rw [memRead, if_neg hi]

theorem memWrite_nat {a : Nat} (h : a < Config.memSize) (v : Byte) (s : State) :
    memWrite a v s = .ok { s with mem := s.mem.write a v } := by
  have hi : inMem (a : Int) = true := (inMem_iff _).mpr (by simp at h; omega)
  rw [memWrite, if_pos hi]
  simp

/-- Everything a completed memory write can do (R52). -/
theorem memWrite_cases {addr : Int} {v : Byte} {s t : State} (h : memWrite addr v s = .ok t) :
    (0 ≤ addr ∧ addr < 256) ∧ t = { s with mem := s.mem.write addr.toNat v } := by
  unfold memWrite at h
  split at h
  · next hi => exact ⟨(inMem_iff _).mp hi, by simpa using h.symm⟩
  · cases h

theorem peek_of_lt {a : Nat} (h : a < Config.memSize) (s : State) : peek a s = some (s.mem.read a) := by
  rw [peek, memRead_nat h]
  rfl

theorem peek_of_ge {a : Nat} (h : Config.memSize ≤ a) (s : State) : peek a s = none := by
  rw [peek, memRead_nat_out h]
  rfl

/-! ### Operands -/

theorem regIndex_of_lt {a : Byte} (h : a.toNat < Config.nRegs) : regIndex a = .ok ⟨a.toNat, h⟩ := dif_pos h

theorem regIndex_of_ge {a : Byte} (h : Config.nRegs ≤ a.toNat) : regIndex a = .error ⟨.outOfRange, a.toNat⟩ :=
  dif_neg (Nat.not_lt.mpr h)

/-- Everything the index check can do (R24). -/
theorem regIndex_cases (a : Byte) :
    (∃ h : a.toNat < Config.nRegs, regIndex a = .ok ⟨a.toNat, h⟩) ∨
      (Config.nRegs ≤ a.toNat ∧ regIndex a = .error ⟨.outOfRange, a.toNat⟩) := by
  by_cases h : a.toNat < Config.nRegs
  · exact .inl ⟨h, regIndex_of_lt h⟩
  · exact .inr ⟨Nat.not_lt.mp h, regIndex_of_ge (Nat.not_lt.mp h)⟩

/-! ### The stack -/

@[simp] theorem State.setReg_sp_self (s : State) (v : Byte) : (s.setReg Config.spIndex v).sp = v :=
  State.reg_setReg_self s Config.spIndex v

theorem spAdjust_dec {s : State} (h : s.sp ≠ 0) :
    spAdjust (-1) s = .ok (s.setReg Config.spIndex (s.sp - 1)) := by
  have h0 : s.sp.toNat ≠ 0 := fun h' => h (BitVec.eq_of_toNat_eq h')
  have hlt := s.sp.isLt
  have hv : (BitVec.ofInt 8 ((s.sp.toNat : Int) + -1)) = s.sp - 1 := by
    apply BitVec.eq_of_toNat_eq
    rw [BitVec.toNat_ofInt, BitVec.toNat_sub, show (1 : Byte).toNat = 1 from rfl]
    omega
  simp only [spAdjust]
  rw [if_pos (by omega), hv]

theorem spAdjust_dec_zero {s : State} (h : s.sp = 0) : spAdjust (-1) s = .error ⟨.outOfRange, -1⟩ := by
  simp [spAdjust, h]

theorem spAdjust_inc {s : State} (h : s.sp ≠ 255) :
    spAdjust 1 s = .ok (s.setReg Config.spIndex (s.sp + 1)) := by
  have h0 : s.sp.toNat ≠ 255 := fun h' => h (BitVec.eq_of_toNat_eq h')
  have hlt := s.sp.isLt
  have hv : (BitVec.ofInt 8 ((s.sp.toNat : Int) + 1)) = s.sp + 1 := by
    apply BitVec.eq_of_toNat_eq
    rw [BitVec.toNat_ofInt, BitVec.toNat_add, show (1 : Byte).toNat = 1 from rfl]
    omega
  simp only [spAdjust]
  rw [if_pos (by omega), hv]

theorem spAdjust_inc_top {s : State} (h : s.sp = 255) : spAdjust 1 s = .error ⟨.outOfRange, 256⟩ := by
  simp [spAdjust, h]

theorem stackTop_eq (s : State) : stackTop s = .ok (s.mem.read s.sp.toNat) := memRead_nat s.sp.isLt s

/-- A push at a stack pointer other than 0: the decremented pointer, and one cell (R160). -/
theorem stackPush_of_ne {s : State} (v : State → Byte) (h : s.sp ≠ 0) :
    stackPush v s =
      .ok { s.setReg Config.spIndex (s.sp - 1) with
        mem := s.mem.write (s.sp - 1).toNat (v (s.setReg Config.spIndex (s.sp - 1))) } := by
  simp only [stackPush, spAdjust_dec h, res_ok_bind, State.setReg_sp_self]
  rw [memWrite_nat (s.sp - 1).isLt]
  rfl

theorem stackPush_of_zero {s : State} (v : State → Byte) (h : s.sp = 0) :
    stackPush v s = .error ⟨.outOfRange, -1⟩ := by
  simp only [stackPush, spAdjust_dec_zero h, res_error_bind]

/-! ### Fetch -/

/-- A fetch at 253 or below reads three cells (R111). -/
theorem fetch_of_le {s : State} (h : s.pc ≤ 253) :
    fetch s = .ok ⟨s.mem.read s.pc, s.mem.read (s.pc + 1), s.mem.read (s.pc + 2)⟩ := by
  have h1 : ((s.pc : Int) + 1) = ((s.pc + 1 : Nat) : Int) := by omega
  have h2 : ((s.pc : Int) + 2) = ((s.pc + 2 : Nat) : Int) := by omega
  simp only [fetch, h1, h2]
  rw [memRead_nat (by simp; omega), memRead_nat (by simp; omega), memRead_nat (by simp; omega)]
  rfl

/-- A fetch past 253 raises OutOfRange of the first address past MEM (R112). -/
theorem fetch_of_gt {s : State} (h : 253 < s.pc) (h' : s.pc ≤ 256) : fetch s = .error ⟨.outOfRange, 256⟩ := by
  have h1 : ((s.pc : Int) + 1) = ((s.pc + 1 : Nat) : Int) := by omega
  have h2 : ((s.pc : Int) + 2) = ((s.pc + 2 : Nat) : Int) := by omega
  simp only [fetch, h1, h2]
  obtain hp | hp | hp : s.pc = 254 ∨ s.pc = 255 ∨ s.pc = 256 := by omega
  · rw [hp, memRead_nat (by simp), memRead_nat (by simp), memRead_nat_out (by simp)]
    rfl
  · rw [hp, memRead_nat (by simp), memRead_nat_out (by simp)]
    rfl
  · rw [hp, memRead_nat_out (by simp)]
    rfl

/-! ### Placing bytes -/

/-- Placing bytes keeps everything but memory. -/
theorem placeBytes_eq (bs : List Byte) (a : Nat) (s : State) :
    placeBytes bs a s = { s with mem := (placeBytes bs a s).mem } := by
  induction bs generalizing a s with
  | nil => rfl
  | cons v rest ih =>
    rw [placeBytes, ih]
    split <;> rfl

theorem placeBytes_wf (bs : List Byte) (a : Nat) {s : State} (h : s.mem.wf) : (placeBytes bs a s).mem.wf := by
  induction bs generalizing a s with
  | nil => exact h
  | cons v rest ih =>
    rw [placeBytes]
    split
    · next ha => exact ih _ (Memory.write_wf h ha v)
    · exact ih _ h

end Sys2Proof.Machine
end

