-- ==== Sys2Proof/Laws/Exec.lean ====
section
/-! SUPPORT. Everything an instruction can do, said once: an invariant or a frame of all instructions is a case analysis
of `exec_cases`, with no unfolding of a handler. -/

namespace Sys2Proof.Machine

/-- The state after the decrement of PUSH and CALL. -/
abbrev State.decSp (s : State) : State := s.setReg Config.spIndex (s.sp - 1)

/-- The state after a push of `v`: the pointer and one cell (R160). -/
abbrev State.pushed (s : State) (v : Byte) : State :=
  { s.decSp with mem := s.mem.write (s.sp - 1).toNat v }

/-- What an instruction that completes leaves. -/
def Completes (i : Instr) (s t : State) : Prop :=
  match i with
  | .hlt => t = s.setRun .halted
  | .ldi a imm => ∃ h : a.toNat < Config.nRegs, t = (s.setReg ⟨a.toNat, h⟩ imm).advance 3
  | .prn a => ∃ h : a.toNat < Config.nRegs, t = (s.emit (s.reg ⟨a.toNat, h⟩)).advance 2
  | .add a b => ∃ (h : a.toNat < Config.nRegs) (k : b.toNat < Config.nRegs),
      t = (s.setReg ⟨a.toNat, h⟩ (s.reg ⟨a.toNat, h⟩ + s.reg ⟨b.toNat, k⟩)).advance 3
  | .mul a b => ∃ (h : a.toNat < Config.nRegs) (k : b.toNat < Config.nRegs),
      t = (s.setReg ⟨a.toNat, h⟩ (s.reg ⟨a.toNat, h⟩ * s.reg ⟨b.toNat, k⟩)).advance 3
  | .cmp a b => ∃ (h : a.toNat < Config.nRegs) (k : b.toNat < Config.nRegs),
      t = (s.setFl (cmpFlags (s.reg ⟨a.toNat, h⟩) (s.reg ⟨b.toNat, k⟩))).advance 3
  | .push a => ∃ h : a.toNat < Config.nRegs, s.sp ≠ 0 ∧ t = (s.pushed (s.decSp.reg ⟨a.toNat, h⟩)).advance 2
  | .pop a => ∃ h : a.toNat < Config.nRegs, ∃ u, u = s.setReg ⟨a.toNat, h⟩ (s.mem.read s.sp.toNat) ∧ u.sp ≠ 255 ∧
      t = (u.setReg Config.spIndex (u.sp + 1)).advance 2
  | .call a => ∃ h : a.toNat < Config.nRegs, s.sp ≠ 0 ∧
      t = (s.pushed (BitVec.ofNat 8 (s.pc + 2))).setPc (s.decSp.reg ⟨a.toNat, h⟩).toNat
  | .ret => s.sp ≠ 255 ∧ t = (s.setReg Config.spIndex (s.sp + 1)).setPc (s.mem.read s.sp.toNat).toNat
  | .jmp a => ∃ h : a.toNat < Config.nRegs, t = s.setPc (s.reg ⟨a.toNat, h⟩).toNat
  | .jeq a => (s.flagE = true ∧ ∃ h : a.toNat < Config.nRegs, t = s.setPc (s.reg ⟨a.toNat, h⟩).toNat) ∨
      (s.flagE = false ∧ t = s.advance 2)
  | .jne a => (s.flagE = false ∧ ∃ h : a.toNat < Config.nRegs, t = s.setPc (s.reg ⟨a.toNat, h⟩).toNat) ∨
      (s.flagE = true ∧ t = s.advance 2)

/-- A jump answers the state with the register's value in pc, or the index fault. -/
theorem jumpTo_cases (a : Byte) (s : State) :
    (∃ h : a.toNat < Config.nRegs, jumpTo a s = .ok (s.setPc (s.reg ⟨a.toNat, h⟩).toNat)) ∨
      (Config.nRegs ≤ a.toNat ∧ jumpTo a s = .error ⟨.outOfRange, a.toNat⟩) := by
  unfold jumpTo
  rcases regIndex_cases a with ⟨h, hr⟩ | ⟨h, hr⟩
  · exact .inl ⟨h, by rw [hr]; rfl⟩
  · exact .inr ⟨h, by rw [hr]; rfl⟩

/-- The inversion lemma: an instruction takes an OutOfRange fault or completes. -/
theorem exec_cases {i : Instr} {s t : State} (h : exec i s = .next t) :
    (∃ e, e.cause = .outOfRange ∧ t = raise e s) ∨ Completes i s t := by
  cases i with
  | hlt =>
    simp only [exec, execHlt] at h
    cases h
    exact .inr rfl
  | ldi a imm =>
    simp only [exec, execLdi] at h
    rcases regIndex_cases a with ⟨k, hk⟩ | ⟨k, hk⟩ <;> rw [hk] at h <;> cases h
    · exact .inr ⟨k, rfl⟩
    · exact .inl ⟨_, rfl, rfl⟩
  | prn a =>
    simp only [exec, execPrn] at h
    rcases regIndex_cases a with ⟨k, hk⟩ | ⟨k, hk⟩ <;> rw [hk] at h <;> cases h
    · exact .inr ⟨k, rfl⟩
    · exact .inl ⟨_, rfl, rfl⟩
  | add a b =>
    simp only [exec, execAdd, aluApply] at h
    rcases regIndex_cases a with ⟨k, hk⟩ | ⟨k, hk⟩ <;> rw [hk] at h
    · rcases regIndex_cases b with ⟨l, hl⟩ | ⟨l, hl⟩ <;> rw [hl] at h <;> cases h
      · exact .inr ⟨k, l, rfl⟩
      · exact .inl ⟨_, rfl, rfl⟩
    · cases h
      exact .inl ⟨_, rfl, rfl⟩
  | mul a b =>
    simp only [exec, execMul, aluApply] at h
    rcases regIndex_cases a with ⟨k, hk⟩ | ⟨k, hk⟩ <;> rw [hk] at h
    · rcases regIndex_cases b with ⟨l, hl⟩ | ⟨l, hl⟩ <;> rw [hl] at h <;> cases h
      · exact .inr ⟨k, l, rfl⟩
      · exact .inl ⟨_, rfl, rfl⟩
    · cases h
      exact .inl ⟨_, rfl, rfl⟩
  | cmp a b =>
    simp only [exec, execCmp, aluApply] at h
    rcases regIndex_cases a with ⟨k, hk⟩ | ⟨k, hk⟩ <;> rw [hk] at h
    · rcases regIndex_cases b with ⟨l, hl⟩ | ⟨l, hl⟩ <;> rw [hl] at h <;> cases h
      · exact .inr ⟨k, l, rfl⟩
      · exact .inl ⟨_, rfl, rfl⟩
    · cases h
      exact .inl ⟨_, rfl, rfl⟩
  | push a =>
    simp only [exec, execPush] at h
    rcases regIndex_cases a with ⟨k, hk⟩ | ⟨k, hk⟩ <;> rw [hk] at h
    · by_cases h0 : s.sp = 0
      · rw [res_ok_bind, stackPush_of_zero _ h0] at h
        cases h
        exact .inl ⟨_, rfl, rfl⟩
      · rw [res_ok_bind, stackPush_of_ne _ h0] at h
        cases h
        exact .inr ⟨k, h0, rfl⟩
    · cases h
      exact .inl ⟨_, rfl, rfl⟩
  | pop a =>
    simp only [exec, execPop] at h
    rcases regIndex_cases a with ⟨k, hk⟩ | ⟨k, hk⟩ <;> rw [hk] at h
    · rw [res_ok_bind, stackTop_eq, res_ok_bind] at h
      by_cases h0 : (s.setReg ⟨a.toNat, k⟩ (s.mem.read s.sp.toNat)).sp = 255
      · rw [spAdjust_inc_top h0] at h
        cases h
        exact .inl ⟨_, rfl, rfl⟩
      · rw [spAdjust_inc h0] at h
        cases h
        exact .inr ⟨k, _, rfl, h0, rfl⟩
    · cases h
      exact .inl ⟨_, rfl, rfl⟩
  | call a =>
    simp only [exec, execCall] at h
    rcases regIndex_cases a with ⟨k, hk⟩ | ⟨k, hk⟩ <;> rw [hk] at h
    · by_cases h0 : s.sp = 0
      · rw [res_ok_bind, stackPush_of_zero _ h0] at h
        cases h
        exact .inl ⟨_, rfl, rfl⟩
      · rw [res_ok_bind, stackPush_of_ne _ h0] at h
        cases h
        exact .inr ⟨k, h0, rfl⟩
    · cases h
      exact .inl ⟨_, rfl, rfl⟩
  | ret =>
    simp only [exec, execRet] at h
    rw [stackTop_eq, res_ok_bind] at h
    by_cases h0 : s.sp = 255
    · rw [spAdjust_inc_top h0] at h
      cases h
      exact .inl ⟨_, rfl, rfl⟩
    · rw [spAdjust_inc h0] at h
      cases h
      exact .inr ⟨h0, rfl⟩
  | jmp a =>
    simp only [exec, execJmp] at h
    rcases jumpTo_cases a s with ⟨k, hk⟩ | ⟨k, hk⟩ <;> rw [hk] at h <;> cases h
    · exact .inr ⟨k, rfl⟩
    · exact .inl ⟨_, rfl, rfl⟩
  | jeq a =>
    simp only [exec, execJeq] at h
    cases hE : s.flagE
    · simp only [hE, Bool.false_eq_true, if_false] at h
      cases h
      exact .inr (.inr ⟨hE, rfl⟩)
    · simp only [hE, if_true] at h
      rcases jumpTo_cases a s with ⟨k, hk⟩ | ⟨k, hk⟩ <;> rw [hk] at h <;> cases h
      · exact .inr (.inl ⟨hE, k, rfl⟩)
      · exact .inl ⟨_, rfl, rfl⟩
  | jne a =>
    simp only [exec, execJne] at h
    cases hE : s.flagE
    · simp only [hE, Bool.false_eq_true, if_false] at h
      rcases jumpTo_cases a s with ⟨k, hk⟩ | ⟨k, hk⟩ <;> rw [hk] at h <;> cases h
      · exact .inr (.inl ⟨hE, k, rfl⟩)
      · exact .inl ⟨_, rfl, rfl⟩
    · simp only [hE, if_true] at h
      cases h
      exact .inr (.inr ⟨hE, rfl⟩)

/-- No instruction stops the machine: it always answers a next state. -/
theorem exec_next (i : Instr) (s : State) : ∃ t, exec i s = .next t := by
  cases i <;>
    simp only [exec, execHlt, execLdi, execPrn, execAdd, execMul, execCmp, execPush, execPop, execCall, execRet, execJmp,
      execJeq, execJne] <;>
    exact commit_next s _

end Sys2Proof.Machine
end

