-- ==== Sys2Proof/Laws/PerInstr.lean ====
section
/-! SUPPORT. Statements made instruction by instruction, one lemma for each constructor of Instr. -/

namespace Sys2Proof.Laws

namespace OpcodeShape

/-- The encoding of an instruction has its length (R80), which the opcode's top two bits give (R85), and the opcode's ALU
bit is set exactly for the ALU's instructions (R81). -/
def Statement (i : Instr) : Prop :=
  (encode i).length = i.length ∧ 1 + opcodeNops (Config.opcodes i.mnemonic) = i.length ∧
    opcodeAlu (Config.opcodes i.mnemonic) = i.mnemonic.usesAlu

/-- The fields of every adopted opcode byte, from the side conditions of R81. -/
theorem fields (k : Mnemonic) :
    1 + opcodeNops (Config.opcodes k) = 1 + k.operandCount ∧ opcodeAlu (Config.opcodes k) = k.usesAlu :=
  ⟨congrArg (1 + ·) (Config.opcodes_valid.nops k), Config.opcodes_valid.alu k⟩

theorem hlt : Statement .hlt := ⟨rfl, fields .hlt⟩
theorem ldi (a imm : Byte) : Statement (.ldi a imm) := ⟨rfl, fields .ldi⟩
theorem prn (a : Byte) : Statement (.prn a) := ⟨rfl, fields .prn⟩
theorem add (a b : Byte) : Statement (.add a b) := ⟨rfl, fields .add⟩
theorem mul (a b : Byte) : Statement (.mul a b) := ⟨rfl, fields .mul⟩
theorem cmp (a b : Byte) : Statement (.cmp a b) := ⟨rfl, fields .cmp⟩
theorem push (a : Byte) : Statement (.push a) := ⟨rfl, fields .push⟩
theorem pop (a : Byte) : Statement (.pop a) := ⟨rfl, fields .pop⟩
theorem call (a : Byte) : Statement (.call a) := ⟨rfl, fields .call⟩
theorem ret : Statement .ret := ⟨rfl, fields .ret⟩
theorem jmp (a : Byte) : Statement (.jmp a) := ⟨rfl, fields .jmp⟩
theorem jeq (a : Byte) : Statement (.jeq a) := ⟨rfl, fields .jeq⟩
theorem jne (a : Byte) : Statement (.jne a) := ⟨rfl, fields .jne⟩

end OpcodeShape

end Sys2Proof.Laws
end

