-- ==== Sys2Proof/Laws/Step.lean ====
section
/-! SUPPORT. Everything a step can do. -/

namespace Sys2Proof.Machine

/-- The bytes a fetch at `pc` would decode. -/
abbrev State.decoded (s : State) : Except DecodeError Instr :=
  decode (s.mem.read s.pc) (s.mem.read (s.pc + 1)) (s.mem.read (s.pc + 2))

/-- What the decoder rejects is named with the byte it read. -/
theorem decode_error {opc opa opb : Byte} {x : DecodeError} (h : decode opc opa opb = .error x) :
    x = .illegalInstruction opc := by
  unfold decode decodeWith at h
  split at h
  · cases h
  · exact (Except.error.inj h).symm

theorem fetchDecode_ok {s : State} {i : Instr} (hp : s.pc ≤ 253) (h : s.decoded = .ok i) : fetchDecode s = .ok i := by
  rw [fetchDecode, fetch_of_le hp, res_ok_bind]
  simp only [State.decoded] at h
  simp only [h, res_pure]

theorem fetchDecode_illegal {s : State} {opc : Byte} (hp : s.pc ≤ 253)
    (h : s.decoded = .error (.illegalInstruction opc)) :
    fetchDecode s = .error ⟨.illegalInstruction, opc.toNat⟩ := by
  rw [fetchDecode, fetch_of_le hp, res_ok_bind]
  simp only [State.decoded] at h
  simp only [h]

/-- A fetch past 253 raises OutOfRange, at whatever distance. -/
theorem fetch_past {s : State} (h : 253 < s.pc) : ∃ n : Int, fetch s = .error ⟨.outOfRange, n⟩ := by
  by_cases h' : s.pc ≤ 256
  · exact ⟨_, fetch_of_gt h h'⟩
  · exact ⟨_, by rw [fetch, memRead_nat_out (by simp; omega)]; rfl⟩

theorem fetchDecode_past {s : State} (h : 253 < s.pc) : ∃ n : Int, fetchDecode s = .error ⟨.outOfRange, n⟩ := by
  obtain ⟨n, hn⟩ := fetch_past h
  exact ⟨n, by rw [fetchDecode, hn]; rfl⟩

/-- Everything fetch and decode can answer. -/
theorem fetchDecode_cases (s : State) :
    (∃ e, fetchDecode s = .error e ∧ (e.cause = .outOfRange ∧ 253 < s.pc ∨ e.cause = .illegalInstruction ∧ s.pc ≤ 253)) ∨
      ∃ i, fetchDecode s = .ok i ∧ s.pc ≤ 253 ∧ s.decoded = .ok i := by
  by_cases hp : s.pc ≤ 253
  · cases hd : s.decoded with
    | ok i => exact .inr ⟨i, fetchDecode_ok hp hd, hp, rfl⟩
    | error x =>
      cases decode_error hd
      exact .inl ⟨_, fetchDecode_illegal hp hd, .inr ⟨rfl, hp⟩⟩
  · obtain ⟨n, hn⟩ := fetchDecode_past (Nat.not_le.mp hp)
    exact .inl ⟨_, hn, .inl ⟨rfl, Nat.not_le.mp hp⟩⟩

/-- The inversion lemma of a step: it runs in a running state, and takes a fetch or decode fault, or runs the decoded
instruction. -/
theorem step_cases {s t : State} (h : step s = .next t) :
    s.run = .running ∧
      ((∃ e, e.cause ≠ .unsupportedOperation ∧ fetchDecode s = .error e ∧ t = raise e s) ∨
        ∃ i, s.pc ≤ 253 ∧ s.decoded = .ok i ∧ exec i s = .next t) := by
  have hr : s.run = .running := by
    cases hrun : s.run <;> simp [step, noStep, hrun] at h ⊢
  refine ⟨hr, ?_⟩
  simp only [step, noStep, hr] at h
  rcases fetchDecode_cases s with ⟨e, he, hc⟩ | ⟨i, hi, hp, hd⟩
  · rw [he] at h
    refine .inl ⟨e, ?_, he, by simpa using h.symm⟩
    rcases hc with ⟨hc, -⟩ | ⟨hc, -⟩ <;> simp [hc]
  · rw [hi] at h
    exact .inr ⟨i, hp, hd, h⟩

end Sys2Proof.Machine
end

