-- ==== Sys2Proof/Tests/Slice0.lean ====
section
/-! SUPPORT. Tests of the model's own: expected results are the spec's vectors (95_test_vectors.md) and tables, or worked
out by hand from a rule, never the model's answers; and a witness of the hypotheses of every statement that has some. -/

namespace Sys2Proof.Tests

open Sys2Proof.Machine

/-- A running state with the given registers, the bytes of an instruction at `p`, and `pc = p`. -/
def at' (x : Vector Byte 8) (p : Nat) (code : List Byte) : State :=
  placeBytes code p { State.reset with regs := x, pc := p }

/-- A register file of the eight given values. -/
abbrev file (r0 r1 r2 r3 r4 r5 r6 r7 : Byte) : Vector Byte 8 := #v[r0, r1, r2, r3, r4, r5, r6, r7]

/-- A register file whose stack pointer is `v` and whose other registers are 0 to 6. -/
abbrev withSp (v : Byte) : Vector Byte 8 := file 0 1 2 3 4 5 6 v

/-- A state with a byte stored at `a`. -/
def store (a : Nat) (v : Byte) (s : State) : State := { s with mem := s.mem.write a v }

/-- What `f` sees in the next state of an outcome, if there is one. -/
def see {α : Type} (o : Outcome) (f : State → α) : Option α :=
  match o with
  | .next t => some (f t)
  | .fault _ => none
  | .refused _ => none

/-! ### WellFormed refuses a reserved operand value (R87) -/

theorem test_wf_accepts_7 : (Instr.add 7 7).wellFormed = true := by decide
theorem test_wf_immediate_is_free : (Instr.ldi 7 255).wellFormed = true := by decide
theorem test_wf_refuses_ldi : (Instr.ldi 8 0).wellFormed = false := by decide
theorem test_wf_refuses_prn : (Instr.prn 255).wellFormed = false := by decide
theorem test_wf_refuses_add_a : (Instr.add 8 0).wellFormed = false := by decide
theorem test_wf_refuses_add_b : (Instr.add 0 8).wellFormed = false := by decide
theorem test_wf_refuses_mul_a : (Instr.mul 9 0).wellFormed = false := by decide
theorem test_wf_refuses_mul_b : (Instr.mul 0 9).wellFormed = false := by decide
theorem test_wf_refuses_cmp_a : (Instr.cmp 16 0).wellFormed = false := by decide
theorem test_wf_refuses_cmp_b : (Instr.cmp 0 16).wellFormed = false := by decide
theorem test_wf_refuses_push : (Instr.push 8).wellFormed = false := by decide
theorem test_wf_refuses_pop : (Instr.pop 8).wellFormed = false := by decide
theorem test_wf_refuses_call : (Instr.call 8).wellFormed = false := by decide
theorem test_wf_refuses_jmp : (Instr.jmp 8).wellFormed = false := by decide
theorem test_wf_refuses_jeq : (Instr.jeq 9).wellFormed = false := by decide
theorem test_wf_refuses_jne : (Instr.jne 9).wellFormed = false := by decide

/-! ### Words written out from R83's table, as the opcode table numbers them (byte at pc most significant) -/

theorem test_word_hlt : decodeTableWord 8 0b00000001 = some .hlt := by decide
theorem test_word_ldi : decodeTableWord 24 0b100000100000000100001001 = some (.ldi 1 9) := by decide
theorem test_word_prn : decodeTableWord 16 0b0100011100000011 = some (.prn 3) := by decide
theorem test_word_add : decodeTableWord 24 0b101000000000001000000101 = some (.add 2 5) := by decide
theorem test_word_mul : decodeTableWord 24 0b101000100000000000000111 = some (.mul 0 7) := by decide
theorem test_word_cmp : decodeTableWord 24 0b101001110000011000000001 = some (.cmp 6 1) := by decide
theorem test_word_push : decodeTableWord 16 0b0100010100000111 = some (.push 7) := by decide
theorem test_word_pop : decodeTableWord 16 0b0100011000000111 = some (.pop 7) := by decide
theorem test_word_call : decodeTableWord 16 0b0101000000000001 = some (.call 1) := by decide
theorem test_word_ret : decodeTableWord 8 0b00010001 = some .ret := by decide
theorem test_word_jmp : decodeTableWord 16 0b0101010000000010 = some (.jmp 2) := by decide
theorem test_word_jeq : decodeTableWord 16 0b0101010100000010 = some (.jeq 2) := by decide
theorem test_word_jne : decodeTableWord 16 0b0101011000000011 = some (.jne 3) := by decide

/-- R86's table: 0x00, a byte with bits 7:6 = 11, an unassigned ALU byte and LS-8's LD are illegal. -/
theorem test_illegal_bytes :
    decode 0x00 0 0 = .error (.illegalInstruction 0x00) ∧ decode 0xC1 0 0 = .error (.illegalInstruction 0xC1) ∧
      decode 0xA5 0 0 = .error (.illegalInstruction 0xA5) ∧ decode 0x83 0 1 = .error (.illegalInstruction 0x83) := by
  decide

/-- P1's listing: the bytes of `MUL R0,R1` and `PRN R0`. -/
theorem test_encode : encode (.mul 0 1) = [0xA2, 0x00, 0x01] ∧ encode (.prn 0) = [0x47, 0x00] := by decide

/-- R83's columns NOPS, ALU and ID for LDI, CMP and JNE. -/
theorem test_opcode_fields :
    [Config.opcodes .ldi, Config.opcodes .cmp, Config.opcodes .jne].map
      (fun b => (opcodeNops b, opcodeAlu b, opcodeId b)) = [(2, false, 2), (2, true, 7), (1, false, 6)] := by decide

/-! ### Steps: the vectors of 95_test_vectors.md -/

/-- V-FE-1: HLT at 253 halts, its operand bytes ignored. -/
theorem test_hlt_at_253 : see (step (at' (withSp 0xF4) 253 [0x01, 0xAA, 0xBB])) (fun t => (t.run, t.pc, t.fault)) =
    some (.halted, 253, none) := by decide

/-- V-FE-2: HLT at 254 faults and does not halt; opb is not valid. -/
theorem test_hlt_at_254 : see (step (at' (withSp 0xF4) 254 [0x01, 0x00])) (fun t => (t.run, t.fault)) =
    some (.faulted, some ⟨.outOfRange, 254, some 0x01, some 0x00, none, 256⟩) := by decide

/-- V-FE-3 and V-FE-4: at 255 only opc is valid, at 256 no latch is. -/
theorem test_fetch_faults :
    see (step (at' (withSp 0xF4) 255 [0x01])) State.fault = some (some ⟨.outOfRange, 255, some 0x01, none, none, 256⟩) ∧
      see (step (at' (withSp 0xF4) 256 [])) State.fault = some (some ⟨.outOfRange, 256, none, none, none, 256⟩) := by decide

/-- V-FE-5 and V-FE-6: the fetch range comes before the decode; an illegal byte leaves pc. -/
theorem test_illegal_steps :
    see (step (at' (withSp 0xF4) 254 [0x00])) (fun t => t.fault.map (·.cause)) = some (some .outOfRange) ∧
      see (step (at' (withSp 0xF4) 7 [])) (fun t => (t.pc, t.fault)) =
        some (7, some ⟨.illegalInstruction, 7, some 0, some 0, some 0, 0⟩) := by decide

/-- V-FE-10 and V-FE-11: HALTED and FAULTED have no step. -/
theorem test_no_step : see (step (State.reset.setRun .halted)) id = none ∧
    see (step (State.reset.setRun .faulted)) id = none := by decide

/-- V-LP-3: index 8 is not masked; nothing is written. -/
theorem test_ldi_index_8 : see (step (at' (withSp 0xF4) 0 [0x82, 0x08, 0x01])) (fun t => (t.regs, t.pc, t.fault)) =
    some (withSp 0xF4, 0, some ⟨.outOfRange, 0, some 0x82, some 0x08, some 0x01, 8⟩) := by decide

/-- V-LP-5: LDI at 253 leaves pc = 256. -/
theorem test_ldi_at_253 : see (step (at' (withSp 0xF4) 253 [0x82, 0x01, 0x07])) (fun t => (t.reg 1, t.pc, t.run)) =
    some (7, 256, .running) := by decide

/-- V-LP-7: PRN R7 appends to what OUT holds. -/
theorem test_prn_sp : see (step { at' (withSp 0xF4) 0 [0x47, 0x07] with out := [5] }) (fun t => (t.out, t.pc)) =
    some ([5, 244], 2) := by decide

/-- V-LP-10: a bad index leaves OUT. -/
theorem test_prn_index : see (step { at' (withSp 0xF4) 0 [0x47, 0xFF] with out := [1] }) (fun t => (t.out, t.pc, t.run)) =
    some ([1], 0, .faulted) := by decide

/-- V-AL-19: ADD into SP wraps like any register. -/
theorem test_add_sp : see (step (at' (file 0 0x10 0 0 0 0 0 0xF4) 0 [0xA0, 0x07, 0x01])) (fun t => (t.sp, t.fl, t.pc)) =
    some (0x04, 0, 3) := by decide

/-- V-AL-14: opa is reported before opb. -/
theorem test_add_both_bad : see (step (at' (withSp 0xF4) 0 [0xA0, 0x08, 0x09])) (fun t => t.fault.map (·.info)) =
    some (some 8) := by decide

/-- V-AL-11: 600 mod 256. -/
theorem test_mul_low_byte : see (step (at' (file 200 3 0 0 0 0 0 0) 6 [0xA2, 0x00, 0x01]))
    (fun t => (t.reg 0, t.reg 1, t.pc)) = some (88, 3, 9) := by decide

/-- V-AL-18: MUL Ra,Ra squares. -/
theorem test_mul_square : see (step (at' (file 0 0 0 16 0 0 0 0) 0 [0xA2, 0x03, 0x03])) (fun t => t.reg 3) = some 0 := by
  decide

/-- V-AL-25: unsigned. -/
theorem test_cmp_unsigned : see (step (at' (file 128 127 0 0 0 0 0 0) 0 [0xA7, 0x00, 0x01])) (fun t => (t.fl, t.pc)) =
    some (0x02, 3) := by decide

/-- V-AL-20 from FL = 0x04: exactly E is left. -/
theorem test_cmp_overwrites : see (step { at' (file 5 5 0 0 0 0 0 0) 9 [0xA7, 0x00, 0x01] with fl := 0x04 })
    (fun t => (t.fl, t.regs, t.pc)) = some (0x01, file 5 5 0 0 0 0 0 0, 12) := by decide

/-- V-ST-7: PUSH R7 stores the decremented pointer. -/
theorem test_push_sp : see (step (at' (withSp 0xF4) 0 [0x45, 0x07])) (fun t => (t.sp, t.mem.read 0xF3, t.pc)) =
    some (0xF3, 0xF3, 2) := by decide

/-- V-ST-12 and V-ST-3: the index before the stack pointer's range, then the range. -/
theorem test_push_order :
    see (step (at' (withSp 0) 3 [0x45, 0x08])) (fun t => (t.sp, t.fault.map (·.info))) = some (0, some 8) ∧
      see (step (at' (withSp 0) 3 [0x45, 0x00])) (fun t => (t.sp, t.fault.map (·.info))) = some (0, some (-1)) := by decide

/-- V-ST-8: POP R7 ends with the popped byte plus one. -/
theorem test_pop_sp : see (step (store 0xF3 0x20 (at' (withSp 0xF3) 2 [0x46, 0x07]))) (fun t => (t.sp, t.pc)) =
    some (0x21, 4) := by decide

/-- V-ST-4: POP at 255 faults and leaves the destination. -/
theorem test_pop_255 : see (step (store 255 7 (at' (withSp 255) 0 [0x46, 0x00])))
    (fun t => (t.reg 0, t.sp, t.fault.map (·.info))) = some (0, 255, some 256) := by decide

/-- V-CT-5: CALL at 253 pushes 255. -/
theorem test_call_at_253 : see (step (at' (file 0 0x30 0 0 0 0 0 0x10) 253 [0x50, 0x01]))
    (fun t => (t.mem.read 0x0F, t.sp, t.pc)) = some (255, 0x0F, 0x30) := by decide

/-- V-CT-6: CALL R7 jumps to the decremented pointer. -/
theorem test_call_sp : see (step (at' (withSp 0xF4) 0 [0x50, 0x07])) (fun t => (t.sp, t.mem.read 0xF3, t.pc)) =
    some (0xF3, 2, 0xF3) := by decide

/-- V-CT-2: the popped cell keeps its byte. -/
theorem test_ret : see (step (store 0xF3 8 (at' (withSp 0xF3) 11 [0x11])))
    (fun t => (t.pc, t.sp, t.mem.read 0xF3)) = some (8, 0xF4, 8) := by decide

/-- V-CT-4: RET at 255. -/
theorem test_ret_255 : see (step (at' (withSp 255) 11 [0x11])) (fun t => (t.pc, t.sp, t.fault.map (·.info))) =
    some (11, 255, some 256) := by decide

/-- V-CT-10: a jump to 254 does not fault. -/
theorem test_jmp_254 : see (step (at' (file 254 0 0 0 0 0 0 0) 3 [0x54, 0x00])) (fun t => (t.pc, t.run)) =
    some (254, .running) := by decide

/-- V-CT-11. -/
theorem test_jmp_index : see (step (at' (withSp 0xF4) 0 [0x54, 0x08])) (fun t => (t.pc, t.run)) = some (0, .faulted) := by
  decide

/-- V-CT-12 and V-CT-14: taken on E, not on G. -/
theorem test_jeq :
    see (step { at' (file 0 0 16 0 0 0 0 0) 12 [0x55, 0x02] with fl := 0x01 }) (fun t => t.pc) = some 16 ∧
      see (step { at' (file 0 0 16 0 0 0 0 0) 12 [0x55, 0x02] with fl := 0x02 }) (fun t => t.pc) = some 14 := by decide

/-- V-CT-20 and V-CT-21: the operand is examined only when the jump is taken. -/
theorem test_jeq_operand :
    see (step (at' (withSp 0xF4) 0 [0x55, 0x09])) (fun t => (t.pc, t.run)) = some (2, .running) ∧
      see (step { at' (withSp 0xF4) 0 [0x55, 0x09] with fl := 0x01 }) (fun t => (t.pc, t.fault.map (·.info))) =
        some (0, some 9) := by decide

/-- V-CT-17 and V-CT-18: taken after "greater", not after "equal". -/
theorem test_jne :
    see (step { at' (file 0 0 0 12 0 0 0 0) 20 [0x56, 0x03] with fl := 0x02 }) (fun t => t.pc) = some 12 ∧
      see (step { at' (file 0 0 0 12 0 0 0 0) 20 [0x56, 0x03] with fl := 0x01 }) (fun t => t.pc) = some 22 := by decide

/-- V-CT-22 and V-CT-23. -/
theorem test_jne_operand :
    see (step (at' (withSp 0xF4) 0 [0x56, 0x09])) (fun t => (t.pc, t.fault.map (·.info))) = some (0, some 9) ∧
      see (step { at' (withSp 0xF4) 0 [0x56, 0x09] with fl := 0x01 }) (fun t => (t.pc, t.run)) = some (2, .running) := by
  decide

/-- The reset state runs a placed word at once (LDI R0,8, V-LP-1). -/
theorem test_withFetchWord : see (step (State.reset.withFetchWord 24 0x820008)) (fun t => (t.reg 0, t.pc)) =
    some (8, 3) := by decide

/-! ### The host's side -/

/-- V-RS-1: reset with four bytes, from a halted state. -/
theorem test_host_reset : ((hostReset (State.reset.setRun .halted) [0x82, 0x00, 0x08, 0x01]).toOption.map
    fun t => (t.mem.read 0, t.mem.read 2, t.mem.read 3, t.mem.read 4, t.sp, t.run)) =
    some (0x82, 0x08, 0x01, 0x00, 0xF4, .running) := by decide

/-- S5's output `72` and a newline; V-LP-8's `0`. -/
theorem test_render : renderOut [72, 0] = ['7', '2', '\n', '0', '\n'] := by decide

/-- R89's example lines, a blank line and a comment line. -/
theorem test_program_text : readProgram ["10000010 # LDI R0,8".toList, "".toList, "# none".toList, "00001000".toList] =
    some [0x82, 0x08] := by decide

/-- R88's forms. -/
theorem test_listing : listing (.ldi 0 8) = "LDI R0,8" ∧ listing (.mul 0 1) = "MUL R0,R1" ∧ listing .hlt = "HLT" := by
  decide

/-- R206: the trace of a state at 255 does not fault. -/
theorem test_trace : (trace (at' (withSp 0xF4) 255 [0x01])).atPc = some 0x01 ∧
    (trace (at' (withSp 0xF4) 255 [0x01])).atPc1 = none := by decide

/-- R194: the cause codes. -/
theorem test_codes : State.reset.faultCode = 0 ∧ (raise ⟨.outOfRange, 8⟩ State.reset).faultCode = 1 ∧
    FaultCause.unsupportedOperation.code = 2 ∧ FaultCause.illegalInstruction.code = 3 := by decide

/-! ### Witnesses: a state and operands that meet the hypotheses of each statement that has some -/

/-- An assignment other than the adopted one that meets the side conditions: HLT on byte 0x00. -/
def otherOpcodes : OpcodeMap := fun k => if k = .hlt then 0x00 else Config.opcodes k

theorem witness_valid_assignments : OpcodeMap.Valid Config.opcodes ∧ OpcodeMap.Valid otherOpcodes :=
  ⟨Config.opcodes_valid, ⟨fun j k => by cases j <;> cases k <;> decide, fun k => by cases k <;> decide,
    fun k => by cases k <;> decide⟩⟩

/-- EncodeOfDecodeIsTheBytesRead; DecodingComparesTheWholeOpcodeByte, its clauses. -/
theorem witness_decode : decodeWith Config.opcodes 0xA0 0xFF 0x00 = .ok (.add 0xFF 0x00) ∧
    (∀ k, (0xFF : Byte) ≠ Config.opcodes k) := ⟨by decide, fun k => by cases k <;> decide⟩

/-- PlacedTableWordIsWhatStepRuns, at both ends of the range of pc. -/
theorem witness_placed_word : State.reset.mem.wf ∧ State.reset.run = .running ∧ State.reset.pc ≤ 253 ∧
    (State.reset.setPc 253).pc ≤ 253 ∧ decodeTableWord 16 0x4708 = some (.prn 8) := by decide

/-- MemWriteChangesOneCellOrRaises: both clauses at their ends. -/
theorem witness_mem_write : State.reset.mem.wf ∧ (0 : Int) ≤ 255 ∧ (255 : Int) ≤ 255 ∧
    ¬ (0 ≤ (-1 : Int) ∧ (-1 : Int) ≤ 255) ∧ ¬ (0 ≤ (256 : Int) ∧ (256 : Int) ≤ 255) := by decide

/-- CanonicalMemoriesThatReadAlikeAreEqual, on a memory that is not empty. -/
theorem witness_canonical : Memory.wf [(0, 1), (255, 2)] ∧ ∀ x, Memory.read [(0, 1), (255, 2)] x =
    Memory.read [(0, 1), (255, 2)] x := ⟨by decide, fun _ => rfl⟩

/-- CompareSetsExactlyOneFlag: the adopted layout and the opposite one. -/
theorem witness_layouts : Config.flagLayout.Valid ∧ FlagLayout.Valid ⟨0, 1, 2⟩ :=
  ⟨⟨by decide, by decide, by decide, by decide, by decide, by decide⟩,
    ⟨by decide, by decide, by decide, by decide, by decide, by decide⟩⟩

/-- The index clauses of RegisterOperandIsNotMasked and of every statement about an instruction with a register operand:
7 is the last that is read, 8 the first that raises. -/
theorem witness_indices : (7 : Byte).toNat < 8 ∧ 8 ≤ (8 : Byte).toNat := by decide

/-- StackPointerUpdateDoesNotWrap, PopLoadsFromTheStackPointer, RetPopsTheProgramCounter: 0, 1, 254 and 255. -/
theorem witness_stack_pointers : (at' (withSp 0) 0 []).sp.toNat = 0 ∧ 1 ≤ (at' (withSp 1) 0 []).sp.toNat ∧
    (at' (withSp 254) 0 []).sp.toNat ≤ 254 ∧ (at' (withSp 255) 0 []).sp.toNat = 255 := by decide

/-- PushStoresBelowTheStackPointer and CallPushesTheReturnAddressAndJumps, the completing clause, register 7 and another. -/
theorem witness_push_call : (at' (withSp 1) 253 []).mem.wf ∧ (at' (withSp 1) 253 []).pc ≤ 253 ∧
    spAdjust (-1) (at' (withSp 1) 253 []) = .ok (at' (withSp 0) 253 []) ∧ (7 : Byte).toNat < 8 ∧ (0 : Byte).toNat ≠ 7 := by
  decide

/-- PopLoadsFromTheStackPointer's operand, and PopIntoTheStackPointerAddsOne's two clauses. -/
theorem witness_pop : (6 : Byte).toNat ≠ 7 ∧ (8 : Byte).toNat ≠ 7 ∧
    (store 0x40 255 (at' (withSp 0x40) 0 [])).mem.read 0x40 = 255 ∧
    (store 0x40 254 (at' (withSp 0x40) 0 [])).mem.read 0x40 ≠ 255 := by decide

/-- JeqJumpsWhenEqual, JneJumpsWhenNotEqual, ExactlyOneOfJeqAndJneIsTaken: E set and E clear (with the operands of
witness_indices). -/
theorem witness_flagE : (State.reset.setFl 0x01).flagE = true ∧ (State.reset.setFl 0x06).flagE = false := by decide

/-- HandlersRaiseTheFirstFailingCheck and EveryInstructionCompletesWithItsNextPc. -/
theorem witness_handlerRaise : handlerRaise (.cmp 7 8) State.reset = some ⟨.outOfRange, 8⟩ ∧
    handlerRaise (.cmp 7 7) State.reset = none ∧ handlerRaise .ret (at' (withSp 255) 0 []) = some ⟨.outOfRange, 256⟩ ∧
    handlerRaise .ret (at' (withSp 254) 0 []) = none := by decide

/-- RegistersNotInTheTableAreUnchanged, OnlyPushAndCallStoreAndOneByte, OnlyPrnWritesOut, OnlyCmpWritesFlAndOnlyJumpsReadIt:
an instruction that answers a next state. -/
theorem witness_exec_next : ∃ t, exec (.push 0) State.reset = .next t := exec_next _ _

/-- OnlyCmpWritesFlAndOnlyJumpsReadIt, third clause: another FL with the same equal flag. -/
theorem witness_other_fl : (State.reset.setFl 0x04).flagE = State.reset.flagE := by decide

/-- StepRunsTheDecodedInstruction, and StepFollowsTheCycle's decoding clauses. -/
theorem witness_decoded : (at' (withSp 9) 253 [0x47, 0x07]).run = .running ∧ (at' (withSp 9) 253 [0x47, 0x07]).pc ≤ 253 ∧
    (at' (withSp 9) 253 [0x47, 0x07]).decoded = .ok (.prn 7) ∧ (∀ k, (at' (withSp 9) 253 []).mem.read 253 ≠
      Config.opcodes k) := ⟨by decide, by decide, by decide, fun k => by cases k <;> decide⟩

/-- StepFollowsTheCycle's other clauses: 254, 255, 256, HALTED and FAULTED; HaltConditionIsTheHltOpcode's second clause. -/
theorem witness_cycle : (at' (withSp 9) 254 []).pc + 2 = 256 ∧ (at' (withSp 9) 255 []).pc + 1 = 256 ∧
    255 < (at' (withSp 9) 256 []).pc ∧ (State.reset.setRun .halted).run = .halted ∧
    (State.reset.setRun .faulted).run = .faulted := by decide

/-- StepTakesTheFirstFaultOfTheOrder: both clauses. -/
theorem witness_stepRaise : (at' (withSp 9) 256 []).pc ≤ 256 ∧ stepRaise (at' (withSp 9) 256 []) = some ⟨.outOfRange, 256⟩ ∧
    stepRaise State.reset = some ⟨.illegalInstruction, 0⟩ ∧ stepRaise (at' (withSp 9) 253 [0x01]) = none := by decide

/-- EveryRunningStateHasANextState; the first clause of HaltConditionIsTheHltOpcode; ProgramCounterPassesTheTopOnlyFrom253:
a step from 253 to 256. -/
theorem witness_step_to_256 : (at' (withSp 9) 253 [0x82, 0x00, 0x00]).run = .running ∧
    (at' (withSp 9) 253 [0x82, 0x00, 0x00]).pc ≤ 256 ∧
    see (step (at' (withSp 9) 253 [0x82, 0x00, 0x00])) (fun t => t.pc) = some 256 := by decide

/-- FaultingStepHasNoOtherEffect, NoStepRaisesUnsupportedOperation, and FaultRecordHoldsTheBytesFetched at 253, 254, 255 and
256: running states whose step faults. -/
theorem witness_faulting_steps : ([253, 254, 255, 256].map fun p =>
    see (step (at' (withSp 9) p [])) fun t => (t.run, t.pc, t.fault.isSome)) =
    [some (.faulted, 253, true), some (.faulted, 254, true), some (.faulted, 255, true), some (.faulted, 256, true)] := by
  decide

/-- LoadPlacesTheProgramFromAddressZero and LoadRefusesALongProgram at their limit. -/
theorem witness_programs : (List.replicate 256 (0x01 : Byte)).length ≤ 256 ∧ 256 < (List.replicate 257 (0x01 : Byte)).length :=
  ⟨Nat.le_of_eq List.length_replicate, Nat.lt_of_lt_of_eq (Nat.lt_succ_self 256) List.length_replicate.symm⟩

/-- V-ST-5's instructions at 20, for a register and a stack pointer of the caller's. -/
def pushPopState (a sp : Byte) : State := at' (file 0 0 33 0 0 0 0 sp) 20 [0x45, a, 0x46, a]

/-- PushThenPopRestores, for register 2 and for register 7, the cell below the code (stack pointers 1 and 20) and above it
(25 and 255): each at both ends of its range. -/
theorem witness_push_pop : ∀ a ∈ [(2 : Byte), 7], ∀ sp ∈ [(1 : Byte), 20, 25, 255], a.toNat < 8 ∧ (pushPopState a sp).mem.wf ∧
    (pushPopState a sp).run = .running ∧ (pushPopState a sp).pc ≤ 251 ∧ 1 ≤ (pushPopState a sp).sp.toNat ∧
    (pushPopState a sp).mem.read 20 = Config.opcodes .push ∧ (pushPopState a sp).mem.read 21 = a ∧
    (pushPopState a sp).mem.read 22 = Config.opcodes .pop ∧ (pushPopState a sp).mem.read 23 = a ∧
    ((pushPopState a sp).sp.toNat - 1 < (pushPopState a sp).pc ∨
      (pushPopState a sp).pc + 3 < (pushPopState a sp).sp.toNat - 1) := by decide

/-- V-CT-1's state. -/
def callState : State := at' (file 0 9 0 0 0 0 0 0xF4) 6 [0x50, 0x01]

/-- CallThenReturnComesBack: a caller, and a RET that meets the premises on the subroutine (V-CT-2). -/
theorem witness_call_return : callState.mem.wf ∧ callState.run = .running ∧ callState.pc ≤ 253 ∧ 1 ≤ callState.sp.toNat ∧
    callState.mem.read 6 = Config.opcodes .call ∧ callState.mem.read 7 = 1 ∧
    see (step callState) (fun t => (t.sp, t.mem.read 0xF3)) = some (0xF3, 8) ∧
    (store 0xF3 8 (at' (withSp 0xF3) 11 [0x11])).sp = 0xF3 ∧
    (store 0xF3 8 (at' (withSp 0xF3) 11 [0x11])).mem.read 0xF3 = 8 ∧
    (store 0xF3 8 (at' (withSp 0xF3) 11 [0x11])).mem.read 11 = Config.opcodes .ret := by decide

/-- V-ST-13's state. -/
def selfStoreState : State := at' (file 0x01 0 0 0 0 0 0 9) 6 [0x45, 0x00]

/-- StoreIntoCodeIsSeenByTheNextFetch. -/
theorem witness_self_store : (0 : Byte).toNat < 8 ∧ (0 : Byte).toNat ≠ 7 ∧ selfStoreState.mem.wf ∧
    selfStoreState.run = .running ∧ selfStoreState.pc ≤ 251 ∧ selfStoreState.mem.read 6 = Config.opcodes .push ∧
    selfStoreState.mem.read 7 = 0 ∧ selfStoreState.sp.toNat = selfStoreState.pc + 3 := by decide

/-- A state that meets the invariant, runs, and steps: HLT at 0. -/
def haltState : State := at' (withSp 0xF4) 0 [0x01]

/-- StepKeepsTheInvariant. -/
theorem witness_inv : Inv haltState ∧ ∃ t, step haltState = .next t :=
  ⟨⟨by decide, by decide, by decide, by decide, fun _ h => (nomatch h.symm.trans (rfl : haltState.fault = none)),
    fun _ h => (nomatch h.symm.trans (rfl : haltState.fault = none))⟩, _, rfl⟩

/-- ResetMeetsTheInvariant, second clause. -/
theorem witness_load : ∃ t, hostReset State.reset [0x01] = .ok t := ⟨_, rfl⟩

/-- EveryReachableStateMeetsTheInvariant, OutOnlyGrowsInARun, ARunThatHaltsNeverFaults: a run from reset with a program of one
HLT, and its end. -/
theorem witness_run : ∃ t u, hostReset State.reset [0x01] = .ok t ∧ Reaches t u ∧ HaltsFrom t :=
  ⟨_, _, rfl, .step .start rfl, _, .step .start rfl, rfl⟩

/-- AnEndedRunStaysAsItIs, for both ends. -/
theorem witness_ended : Ended (State.reset.setRun .halted) ∧ Ended (State.reset.setRun .faulted) ∧
    Reaches (State.reset.setRun .halted) (State.reset.setRun .halted) :=
  ⟨by simp [Ended], by simp [Ended], .start⟩

end Sys2Proof.Tests
end

section
/-! SUPPORT. FL in the instructions (R32): every operation but CMP leaves it, and reads nothing of it but the equal flag. -/

namespace Sys2Proof.Machine

/-! ### What writes FL -/

/-- A completed instruction other than CMP leaves FL. -/
theorem Completes.fl_eq {i : Instr} {s t : State} (h : Completes i s t) (hi : i.mnemonic ≠ .cmp) : t.fl = s.fl := by
  cases i with
  | cmp a b => exact absurd rfl hi
  | hlt => cases h; rfl
  | ldi a imm | prn a | jmp a => obtain ⟨_, rfl⟩ := h; rfl
  | add a b | mul a b => obtain ⟨_, _, rfl⟩ := h; rfl
  | push a | call a => obtain ⟨_, _, rfl⟩ := h; rfl
  | pop a => obtain ⟨_, _, rfl, _, rfl⟩ := h; rfl
  | ret => obtain ⟨_, rfl⟩ := h; rfl
  | jeq a | jne a => obtain ⟨_, _, rfl⟩ | ⟨_, rfl⟩ := h <;> rfl

/-- An instruction other than CMP leaves FL, whether it completes or takes a fault (R32). -/
theorem exec_fl_of_ne_cmp {i : Instr} {s t : State} (h : exec i s = .next t) (hi : i.mnemonic ≠ .cmp) :
    t.fl = s.fl := by
  obtain ⟨e, -, rfl⟩ | hc := exec_cases h
  · rfl
  · exact hc.fl_eq hi

/-- CMP on two registers: their flags byte in FL, and the next instruction (R147). -/
theorem exec_cmp_of_lt {a b : Byte} (h : a.toNat < Config.nRegs) (k : b.toNat < Config.nRegs) (s : State) :
    exec (.cmp a b) s =
      .next ((s.setFl (cmpFlags (s.reg ⟨a.toNat, h⟩) (s.reg ⟨b.toNat, k⟩))).advance 3) := by
  simp only [exec, execCmp, regIndex_of_lt h, regIndex_of_lt k, aluApply, res_ok_bind, res_pure, commit_ok]

/-! ### Operations that carry FL along unread -/

theorem State.setFl_setReg (s : State) (v w : Byte) (i : Fin Config.nRegs) :
    (s.setFl v).setReg i w = (s.setReg i w).setFl v := rfl

theorem memWrite_setFl (addr : Int) (w v : Byte) (s : State) :
    memWrite addr w (s.setFl v) = (·.setFl v) <$> memWrite addr w s := by
  unfold memWrite
  split <;> rfl

theorem spAdjust_setFl (d : Int) (v : Byte) (s : State) :
    spAdjust d (s.setFl v) = (·.setFl v) <$> spAdjust d s := by
  simp only [spAdjust, apply_ite (Functor.map _)]
  rfl

theorem stackTop_setFl (v : Byte) (s : State) : stackTop (s.setFl v) = stackTop s := rfl

/-- A push of a value that does not depend on FL. -/
theorem stackPush_setFl {f : State → Byte} {v : Byte} (hf : ∀ t : State, f (t.setFl v) = f t) (s : State) :
    stackPush f (s.setFl v) = (·.setFl v) <$> stackPush f s := by
  simp only [stackPush, spAdjust_setFl, bind_map_left, map_bind, State.setFl_sp, hf, memWrite_setFl]

/-! ### Outcomes that differ in FL alone -/

/-- Two handlers' results that are the same `raise`, or states equal but for FL. -/
def SameButFl (x y : Res State) : Prop := x.map (·.setFl 0) = y.map (·.setFl 0)

/-- A value read without FL, followed by results that differ in FL alone. -/
theorem SameButFl.bind {α : Type} (x : Res α) {f g : α → Res State} (h : ∀ a, SameButFl (f a) (g a)) :
    SameButFl (x >>= f) (x >>= g) := by
  cases x with
  | error e => rfl
  | ok a => exact h a

/-- A jump reads nothing of FL. -/
theorem jumpTo_setFl (a v : Byte) (s : State) : SameButFl (jumpTo a (s.setFl v)) (jumpTo a s) :=
  .bind (regIndex a) fun _ => rfl

/-- Committed from states that differ in FL alone, such results give states that differ in FL alone: a fault's record and
frame do not read FL either (R195, R196). -/
theorem SameButFl.commit {s : State} {v : Byte} {x y : Res State} (h : SameButFl x y) :
    ∃ t u, commit s y = .next t ∧ commit (s.setFl v) x = .next u ∧ u.setFl 0 = t.setFl 0 := by
  match x, y, h with
  | .ok u, .ok t, h => exact ⟨t, u, rfl, rfl, Except.ok.inj h⟩
  | .error e, .error e', h => cases h; exact ⟨_, _, rfl, rfl, rfl⟩

/-- Another FL, with the same equal flag where the instruction is JEQ or JNE, changes nothing of an instruction's outcome
but FL (R32). -/
theorem exec_setFl (i : Instr) (s : State) (v : Byte)
    (hE : i.mnemonic = .jeq ∨ i.mnemonic = .jne → (s.setFl v).flagE = s.flagE) :
    ∃ t u, exec i s = .next t ∧ exec i (s.setFl v) = .next u ∧ u.setFl 0 = t.setFl 0 := by
  cases i with
  | hlt => exact ⟨_, _, rfl, rfl, rfl⟩
  | ldi a imm | prn a => exact SameButFl.commit (.bind (regIndex a) fun _ => rfl)
  | add a b | mul a b | cmp a b =>
    exact SameButFl.commit (.bind (regIndex a) fun _ => .bind (regIndex b) fun _ => rfl)
  | push a | call a =>
    refine SameButFl.commit (.bind (regIndex a) fun _ => ?_)
    rw [stackPush_setFl fun _ => rfl, bind_map_left]
    exact .bind _ fun _ => rfl
  | pop a =>
    simp only [exec, execPop, stackTop_setFl, State.setFl_setReg, spAdjust_setFl, bind_map_left]
    exact SameButFl.commit (.bind _ fun _ => .bind _ fun _ => .bind _ fun _ => rfl)
  | ret =>
    simp only [exec, execRet, stackTop_setFl, spAdjust_setFl, bind_map_left]
    exact SameButFl.commit (.bind _ fun _ => .bind _ fun _ => rfl)
  | jmp a => exact SameButFl.commit (jumpTo_setFl a v s)
  | jeq a =>
    refine SameButFl.commit ?_
    rw [hE (.inl rfl)]
    split
    · exact jumpTo_setFl a v s
    · rfl
  | jne a =>
    refine SameButFl.commit ?_
    rw [hE (.inr rfl)]
    split
    · rfl
    · exact jumpTo_setFl a v s

/-- Settles O33: the frame of FL comes from the inversion lemma of `exec`; that nothing but the equal flag is read, from the
commuting of every shared operation with a change of FL. -/
theorem onlyCmpWritesFlAndOnlyJumpsReadIt : Obligations.OnlyCmpWritesFlAndOnlyJumpsReadIt := by
  refine ⟨fun i s t h hi => exec_fl_of_ne_cmp h hi, fun a b s h k => ?_, exec_setFl⟩
  exact ⟨_, exec_cmp_of_lt h k s, rfl⟩

end Sys2Proof.Machine
end

section
/-! SUPPORT. The two accesses over every integer address, with the range written as R51 and R52 write it. -/

namespace Sys2Proof.Machine

/-- The addresses of MEM as R51 and R52 give them. -/
theorem inMem_iff_le_255 (addr : Int) : inMem addr = true ↔ 0 ≤ addr ∧ addr ≤ 255 := by
  rw [inMem_iff]
  omega

theorem memWrite_of_mem {addr : Int} (h : 0 ≤ addr ∧ addr ≤ 255) (v : Byte) (s : State) :
    memWrite addr v s = .ok { s with mem := s.mem.write addr.toNat v } := by
  rw [memWrite, if_pos ((inMem_iff_le_255 addr).mpr h)]

theorem memWrite_of_not_mem {addr : Int} (h : ¬ (0 ≤ addr ∧ addr ≤ 255)) (v : Byte) (s : State) :
    memWrite addr v s = .error ⟨.outOfRange, addr⟩ := by
  rw [memWrite, if_neg (mt (inMem_iff_le_255 addr).mp h)]

/-- Settles O6: the range check of the read is R51's. -/
theorem memReadReturnsTheCellOrRaises : Obligations.MemReadReturnsTheCellOrRaises := by
  intro addr s
  simp only [memRead, inMem_iff_le_255]

/-- Settles O7: inside MEM, by the laws of a read after a write to the same cell (where the canonical form is used) and to
another; outside, by the range check. -/
theorem memWriteChangesOneCellOrRaises : Obligations.MemWriteChangesOneCellOrRaises := by
  rintro addr v s ⟨hsorted, -⟩
  refine ⟨fun hin => ⟨_, memWrite_of_mem hin v s, ?_, fun x hx => ?_, rfl⟩, fun hout => memWrite_of_not_mem hout v s⟩
  · exact Memory.read_write_self hsorted addr.toNat v
  · exact Memory.read_write_ne s.mem v hx

end Sys2Proof.Machine
end

section
/-! SUPPORT. The decoder under any opcode assignment: what it answers is decided by the look-up of the opcode byte alone. -/

namespace Sys2Proof

/-- Under a valid assignment the look-up of an opcode byte is whole-byte equality (R84). -/
theorem OpcodeMap.lookup_eq_some_iff {m : OpcodeMap} (hm : m.Valid) {opc : Byte} {k : Mnemonic} :
    m.lookup opc = some k ↔ opc = m k := by
  constructor
  · exact fun h => (OpcodeMap.lookup_some h).symm
  · rintro rfl
    exact OpcodeMap.lookup_self hm k

theorem decodeWith_eq_ok_iff {m : OpcodeMap} {opc opa opb : Byte} {i : Instr} :
    decodeWith m opc opa opb = .ok i ↔ ∃ k, m.lookup opc = some k ∧ k.assemble opa opb = i := by
  unfold decodeWith
  cases m.lookup opc <;> simp

/-- The only rejection there is, by the byte's own name (R86). -/
theorem decodeWith_eq_error_iff {m : OpcodeMap} {opc opa opb : Byte} {x : DecodeError} :
    decodeWith m opc opa opb = .error x ↔ m.lookup opc = none ∧ .illegalInstruction opc = x := by
  unfold decodeWith
  cases m.lookup opc <;> simp

/-- The mnemonic of a decoded instruction is the one looked up; the operand bytes do not select it (R84). -/
theorem exists_decodeWith_mnemonic_iff {m : OpcodeMap} {opc opa opb : Byte} {k : Mnemonic} :
    (∃ i, decodeWith m opc opa opb = .ok i ∧ i.mnemonic = k) ↔ m.lookup opc = some k := by
  constructor
  · rintro ⟨i, hi, rfl⟩
    obtain ⟨j, hj, rfl⟩ := decodeWith_eq_ok_iff.mp hi
    rwa [Mnemonic.assemble_mnemonic]
  · exact fun h => ⟨_, decodeWith_eq_ok_iff.mpr ⟨k, h, rfl⟩, k.assemble_mnemonic opa opb⟩

/-- Settles O4: each answer of the decoder is an answer of the look-up, which under a valid assignment is whole-byte
equality; at most one mnemonic matches because the assigned bytes are distinct. -/
theorem decodingComparesTheWholeOpcodeByte : Obligations.DecodingComparesTheWholeOpcodeByte := by
  intro m hm opc opa opb
  refine ⟨fun k => ?_, fun j k hj hk => ?_, ?_⟩
  · exact exists_decodeWith_mnemonic_iff.trans (OpcodeMap.lookup_eq_some_iff hm)
  · exact hm.distinct j k (hj.symm.trans hk)
  · simp only [decodeWith_eq_error_iff, OpcodeMap.lookup_none, and_true, ne_comm]

end Sys2Proof
end

section
/-! SUPPORT. The ALU's two arithmetic operations (R141, R142): what the port answers, and its result as a number. -/

namespace Sys2Proof.Machine

/-- The `flags` output is the free value of entry 13. -/
@[simp] theorem aluApply_add (a b : Byte) : aluApply .add a b = .ok ⟨a + b, Config.aluAddFlags a b⟩ := rfl

@[simp] theorem aluApply_mul (a b : Byte) : aluApply .mul a b = .ok ⟨a * b, Config.aluMulFlags a b⟩ := rfl

/-- Settles O9: the ALU answers the sum of the two bytes, whose number drops the carry. -/
theorem aluAddIsTheSumModulo256 : Obligations.AluAddIsTheSumModulo256 :=
  fun a b => ⟨_, aluApply_add a b, BitVec.toNat_add a b⟩

/-- Settles O10: the ALU answers the product of the two bytes, whose number drops the high half. -/
theorem aluMulIsTheProductModulo256 : Obligations.AluMulIsTheProductModulo256 :=
  fun a b => ⟨_, aluApply_mul a b, BitVec.toNat_mul a b⟩

end Sys2Proof.Machine
end

section
/-! SUPPORT. The round trip between an instruction and its bytes, in both directions, under any opcode assignment. -/

namespace Sys2Proof

/-- The first two bytes after the opcode assemble the instruction again, whatever follows it (R82). -/
theorem Instr.assemble_operands (i : Instr) (u v : Byte) :
    ∃ opa opb rest, i.operands ++ [u, v] = opa :: opb :: rest ∧ i.mnemonic.assemble opa opb = i := by
  cases i <;> exact ⟨_, _, _, rfl, rfl⟩

/-- An assembled instruction encodes to its opcode byte and the operand bytes its format has (R80). -/
theorem encodeWith_assemble (m : OpcodeMap) (k : Mnemonic) (opa opb : Byte) :
    encodeWith m (k.assemble opa opb) = [m k, opa, opb].take (k.assemble opa opb).length := by
  cases k <;> rfl

theorem decodeWith_opcode {m : OpcodeMap} (hm : m.Valid) (k : Mnemonic) (opa opb : Byte) :
    decodeWith m (m k) opa opb = .ok (k.assemble opa opb) :=
  decodeWith_eq_ok_iff.mpr ⟨k, OpcodeMap.lookup_self hm k, rfl⟩

/-- An opcode byte of CORE selects its instruction, whatever the operand bytes (R84). -/
theorem decode_opcode (k : Mnemonic) (opa opb : Byte) :
    decode (Config.opcodes k) opa opb = .ok (k.assemble opa opb) :=
  decodeWith_opcode Config.opcodes_valid k opa opb

/-- The opcode byte of a decoded instruction is the one assigned to it. -/
theorem opcode_of_decode {opc opa opb : Byte} {i : Instr} (h : decode opc opa opb = .ok i) :
    opc = Config.opcodes i.mnemonic := by
  obtain ⟨k, hk, rfl⟩ := decodeWith_eq_ok_iff.mp h
  rw [Mnemonic.assemble_mnemonic, OpcodeMap.lookup_some hk]

/-- A byte that is no opcode is rejected by name (R86). -/
theorem decode_of_ne_opcode {opc : Byte} (h : ∀ k, opc ≠ Config.opcodes k) (opa opb : Byte) :
    decode opc opa opb = .error (.illegalInstruction opc) :=
  decodeWith_eq_error_iff.mpr ⟨OpcodeMap.lookup_none.mpr fun k => (h k).symm, rfl⟩

/-- Settles O2: the opcode byte of a valid assignment selects the instruction's mnemonic, and the two bytes after it
assemble the instruction again. -/
theorem decodeOfEncodeUnderEveryAssignment : Obligations.DecodeOfEncodeUnderEveryAssignment := by
  intro m hm i u v
  obtain ⟨opa, opb, rest, hbytes, hi⟩ := i.assemble_operands u v
  refine ⟨m i.mnemonic, opa, opb, rest, congrArg (m i.mnemonic :: ·) hbytes, ?_⟩
  rw [decodeWith_opcode hm, hi]

/-- Settles O3: the byte looked up is the byte assigned, and the rest is the encoding of an assembled instruction. -/
theorem encodeOfDecodeIsTheBytesRead : Obligations.EncodeOfDecodeIsTheBytesRead := by
  intro m opc opa opb i h
  obtain ⟨k, hk, rfl⟩ := decodeWith_eq_ok_iff.mp h
  rw [encodeWith_assemble, OpcodeMap.lookup_some hk]

/-- Settles O1: each word's first byte is the opcode byte of the mnemonic it is meant for. -/
theorem writtenOutWordsDecode : Obligations.WrittenOutWordsDecode :=
  ⟨decode_opcode .hlt _ _, decode_opcode .ldi _ _, decode_opcode .prn _ _, decode_opcode .add _ _,
    decode_opcode .mul _ _, decode_opcode .cmp _ _, decode_opcode .push _ _, decode_opcode .pop _ _,
    decode_opcode .call _ _, decode_opcode .ret _ _, decode_opcode .jmp _ _, decode_opcode .jeq _ _,
    decode_opcode .jne _ _⟩

end Sys2Proof
end

section
/-! SUPPORT. The canonical form of a memory determines it, and what a read gives after bytes are placed (R50, R64). -/

namespace Sys2Proof.Machine

theorem Memory.wf_tail {c : Host.Cell} {m : Memory} (h : Memory.wf (c :: m)) : m.wf :=
  ⟨h.1.of_cons, fun d hd => h.2 d (List.mem_cons_of_mem c hd)⟩

/-- Below its first cell a canonical memory reads as an unlisted cell does. -/
theorem Memory.read_cons_of_lt {b x : Nat} {v : Byte} {m : Memory} (h : Memory.wf ((b, v) :: m)) (hx : x < b) :
    Memory.read ((b, v) :: m) x = Config.memReset := by
  obtain ⟨hb, -⟩ := List.pairwise_cons.mp h.1
  refine Memory.read_of_lt fun c hc => ?_
  rcases List.mem_cons.mp hc with rfl | hc
  · exact hx
  · exact Nat.lt_trans hx (hb c hc)

theorem Memory.read_cons_self (b : Nat) (v : Byte) (m : Memory) : Memory.read ((b, v) :: m) b = v := if_pos rfl

theorem Memory.read_cons_ne {b x : Nat} (v : Byte) (m : Memory) (h : x ≠ b) :
    Memory.read ((b, v) :: m) x = Memory.read m x := if_neg h

/-- The tail of a canonical memory, at the address of the first cell. -/
theorem Memory.read_tail_self {b : Nat} {v : Byte} {m : Memory} (h : Memory.wf ((b, v) :: m)) :
    Memory.read m b = Config.memReset :=
  Memory.read_of_lt (List.pairwise_cons.mp h.1).1

/-- A first cell holds a byte that an unlisted cell does not. -/
theorem Memory.head_ne_reset {b : Nat} {v : Byte} {m : Memory} (h : Memory.wf ((b, v) :: m)) :
    v ≠ Config.memReset := (h.2 (b, v) List.mem_cons_self).2

/-- Memories that read alike have their first cell at the same address: neither begins below the other. -/
theorem Memory.head_not_lt {b b' : Nat} {v v' : Byte} {m m' : Memory} (h : Memory.wf ((b, v) :: m))
    (h' : Memory.wf ((b', v') :: m'))
    (he : ∀ x, Memory.read ((b, v) :: m) x = Memory.read ((b', v') :: m') x) : ¬ b < b' := by
  intro hlt
  have hb := he b
  rw [Memory.read_cons_self, Memory.read_cons_of_lt h' hlt] at hb
  exact Memory.head_ne_reset h hb

/-- Settles O8, by induction on the cells: memories that read alike begin with the same cell, and their tails read
alike. -/
theorem canonicalMemoriesThatReadAlikeAreEqual : Obligations.CanonicalMemoriesThatReadAlikeAreEqual := by
  intro m
  induction m with
  | nil =>
    rintro (_ | ⟨⟨b, v⟩, m'⟩) - h' he
    · rfl
    · exact absurd ((Memory.read_cons_self b v m').symm.trans (he b).symm) (Memory.head_ne_reset h')
  | cons c m ih =>
    obtain ⟨b, v⟩ := c
    rintro (_ | ⟨⟨b', v'⟩, m'⟩) h h' he
    · exact absurd ((Memory.read_cons_self b v m).symm.trans (he b)) (Memory.head_ne_reset h)
    · obtain rfl : b = b' := by
        have hle := Memory.head_not_lt h h' he
        have hge := Memory.head_not_lt h' h fun x => (he x).symm
        omega
      obtain rfl : v = v' := by simpa only [Memory.read_cons_self] using he b
      congr 1
      refine ih m' (Memory.wf_tail h) (Memory.wf_tail h') fun x => ?_
      by_cases hx : x = b
      · rw [hx, Memory.read_tail_self h, Memory.read_tail_self h']
      · simpa only [Memory.read_cons_ne _ _ hx] using he x

/-! ### Placing bytes -/

@[simp] theorem placeBytes_pc (bs : List Byte) (a : Nat) (s : State) : (placeBytes bs a s).pc = s.pc := by
  rw [placeBytes_eq]

@[simp] theorem placeBytes_run (bs : List Byte) (a : Nat) (s : State) : (placeBytes bs a s).run = s.run := by
  rw [placeBytes_eq]

/-- Placing a first byte inside MEM is a write to its cell. -/
theorem placeBytes_cons {a : Nat} (ha : a < Config.memSize) (v : Byte) (bs : List Byte) (s : State) :
    placeBytes (v :: bs) a s = placeBytes bs (a + 1) { s with mem := s.mem.write a v } := by
  rw [placeBytes, if_pos ha]

/-- Bytes placed from `a` up leave the cells below `a`. -/
theorem placeBytes_read_of_lt (bs : List Byte) {a x : Nat} (s : State) (hx : x < a) :
    (placeBytes bs a s).mem.read x = s.mem.read x := by
  induction bs generalizing a s with
  | nil => rfl
  | cons v bs ih =>
    rw [placeBytes, ih _ (Nat.lt_succ_of_lt hx)]
    split
    · exact Memory.read_write_ne s.mem v (Nat.ne_of_lt hx)
    · rfl

/-- Cell `a + k` holds byte `k` of those placed from `a` up; a cell past them is left. -/
theorem placeBytes_read_add {bs : List Byte} {a : Nat} {s : State} (h : s.mem.wf)
    (ha : a + bs.length ≤ Config.memSize) (k : Nat) :
    (placeBytes bs a s).mem.read (a + k) = bs.getD k (s.mem.read (a + k)) := by
  induction bs generalizing a s k with
  | nil => rfl
  | cons v bs ih =>
    rw [List.length_cons] at ha
    have hlt : a < Config.memSize := by omega
    rw [placeBytes_cons hlt]
    cases k with
    | zero =>
      exact (placeBytes_read_of_lt bs _ (Nat.lt_add_one a)).trans (Memory.read_write_self h.1 a v)
    | succ k =>
      rw [show a + (k + 1) = a + 1 + k by omega, ih (Memory.write_wf h hlt v) (by omega) k, List.getD_cons_succ]
      congr 1
      exact Memory.read_write_ne s.mem v (by omega)

/-! ### Reset and load -/

/-- A load that fits in MEM places the program's bytes (R64). -/
theorem loadFrom_of_le {program : List Byte} {a : Nat} (h : a + program.length ≤ Config.memSize) (s : State) :
    loadFrom program a s = .ok (placeBytes program a s) := by
  induction program generalizing a s with
  | nil => rfl
  | cons v rest ih =>
    rw [List.length_cons] at h
    have hlt : a < Config.memSize := by omega
    rw [loadFrom, memWrite_nat hlt, res_ok_bind, ih (by omega), placeBytes_cons hlt]

/-- A load that passes the end of MEM raises OutOfRange of the first address past it (R64, R191 row 5). -/
theorem loadFrom_of_gt {program : List Byte} {a : Nat} (ha : a ≤ Config.memSize)
    (h : Config.memSize < a + program.length) (s : State) :
    loadFrom program a s = .error ⟨.outOfRange, 256⟩ := by
  induction program generalizing a s with
  | nil => exact absurd h (Nat.not_lt.mpr ha)
  | cons v rest ih =>
    rw [List.length_cons] at h
    by_cases hlt : a < Config.memSize
    · rw [loadFrom, memWrite_nat hlt, res_ok_bind, ih hlt (by omega)]
    · obtain rfl : a = Config.memSize := by omega
      rw [loadFrom, memWrite_of_not_mem (by simp), res_error_bind]
      rfl

theorem hostReset_of_le {program : List Byte} (h : program.length ≤ Config.memSize) (s : State) :
    hostReset s program = .ok (placeBytes program 0 State.reset) :=
  loadFrom_of_le (by simpa using h) State.reset

theorem hostReset_of_gt {program : List Byte} (h : Config.memSize < program.length) (s : State) :
    hostReset s program = .error ⟨.outOfRange, 256⟩ :=
  loadFrom_of_gt (Nat.zero_le _) (by simpa using h) State.reset

/-- Everything an accepted load can answer. -/
theorem hostReset_cases {s t : State} {program : List Byte} (h : hostReset s program = .ok t) :
    t = placeBytes program 0 State.reset := by
  by_cases hlen : program.length ≤ Config.memSize
  · rw [hostReset_of_le hlen] at h
    exact (Except.ok.inj h).symm
  · rw [hostReset_of_gt (Nat.not_le.mp hlen)] at h
    cases h

/-- Settles O46: the memory of reset lists no cell, and each register is read off the table. -/
theorem resetLeavesTheTableOfValues : Obligations.ResetLeavesTheTableOfValues :=
  ⟨fun _ => rfl, by decide, rfl, rfl, rfl, rfl, rfl⟩

/-- Settles O47: the load places the program's bytes from address 0 in the reset state. -/
theorem loadPlacesTheProgramFromAddressZero : Obligations.LoadPlacesTheProgramFromAddressZero := by
  intro s program h
  refine ⟨_, hostReset_of_le h s, fun k => ?_, placeBytes_eq _ _ _⟩
  have hread := placeBytes_read_add (s := State.reset) Memory.nil_wf
    (show 0 + program.length ≤ Config.memSize by simpa using h) k
  rwa [Nat.zero_add] at hread

/-- Settles O48: the write of byte 256 is the first out of range. -/
theorem loadRefusesALongProgram : Obligations.LoadRefusesALongProgram :=
  fun s _ h => hostReset_of_gt h s

end Sys2Proof.Machine
end

section
/-! SUPPORT. The flags byte of CMP (R143), the ALU's port, and the checks of an operand and of the stack pointer. -/

namespace Sys2Proof.Machine

/-- The byte of one flag has that bit and no other. -/
theorem bitMask_getLsbD {n : Nat} (hn : n ≤ 2) (k : Nat) : (bitMask n).getLsbD k = decide (n = k) := by
  have hlt : n < 8 := by omega
  rw [show bitMask n = BitVec.twoPow 8 n from rfl, BitVec.getLsbD_twoPow]
  simp [hlt]

theorem cmpFlagsWith_eq (k : FlagLayout) {a b : Byte} (h : a.toNat = b.toNat) : cmpFlagsWith k a b = bitMask k.eBit :=
  if_pos h

theorem cmpFlagsWith_gt (k : FlagLayout) {a b : Byte} (h : b.toNat < a.toNat) :
    cmpFlagsWith k a b = bitMask k.gBit := by
  rw [cmpFlagsWith, if_neg (by omega), if_pos h]

theorem cmpFlagsWith_lt (k : FlagLayout) {a b : Byte} (h : a.toNat < b.toNat) :
    cmpFlagsWith k a b = bitMask k.lBit := by
  rw [cmpFlagsWith, if_neg (by omega), if_neg (by omega)]

/-- CORE's flags byte, as R147 writes it. -/
theorem cmpFlags_eq (a b : Byte) :
    cmpFlags a b = if a.toNat = b.toNat then 0x01 else if b.toNat < a.toNat then 0x02 else 0x04 := rfl

/-- CMP leaves a value FL can hold (R33). -/
theorem cmpFlags_legal (a b : Byte) : flLegal (cmpFlags a b) = true := by
  rw [cmpFlags_eq]
  split
  · decide
  · split <;> decide

/-- Settles O11: the comparison has one of three outcomes, the flags byte is then one flag's, and a valid layout keeps
the three apart. -/
theorem compareSetsExactlyOneFlag : Obligations.CompareSetsExactlyOneFlag := by
  refine ⟨fun k hk a b => ?_, fun a b => ⟨_, rfl, cmpFlags_eq a b⟩⟩
  obtain ⟨hl, hg, he, hlg, hle, hge⟩ := hk
  rcases Nat.lt_trichotomy a.toNat b.toNat with h | h | h
  · simp only [cmpFlagsWith_lt k h, bitMask_getLsbD hl, decide_eq_true_eq, decide_eq_false_iff_not]
    exact ⟨by omega, by omega, iff_of_true trivial h, fun _ _ _ hL => hL.symm⟩
  · simp only [cmpFlagsWith_eq k h, bitMask_getLsbD he, decide_eq_true_eq, decide_eq_false_iff_not]
    exact ⟨iff_of_true trivial h, by omega, by omega, fun _ hE _ _ => hE.symm⟩
  · simp only [cmpFlagsWith_gt k h, bitMask_getLsbD hg, decide_eq_true_eq, decide_eq_false_iff_not]
    exact ⟨by omega, iff_of_true trivial h, by omega, fun _ _ hG _ => hG.symm⟩

@[simp] theorem aluApply_unrecognized (id : Int) (a b : Byte) :
    aluApply (.unrecognized id) a b = .error ⟨.unsupportedOperation, id⟩ := rfl

/-- Settles O12: the ALU's answer to such a selector. -/
theorem aluRejectsEveryOtherSelector : Obligations.AluRejectsEveryOtherSelector := aluApply_unrecognized

/-- Settles O13: the two answers of the index check. -/
theorem registerOperandIsNotMasked : Obligations.RegisterOperandIsNotMasked :=
  fun _ => ⟨regIndex_of_lt, regIndex_of_ge⟩

/-! ### Registers that stay -/

/-- A write of one register leaves the others. -/
theorem SameRegsBut.setReg (s : State) (i : Fin Config.nRegs) (v : Byte) : SameRegsBut [i.val] s (s.setReg i v) :=
  fun j hj => State.reg_setReg_ne s i j v fun hij => hj (hij ▸ List.mem_cons_self)

theorem SameRegsBut.trans {w w' : List Nat} {s t u : State} (h : SameRegsBut w s t) (h' : SameRegsBut w' t u) :
    SameRegsBut (w ++ w') s u := fun j hj =>
  (h' j fun hw' => hj (List.mem_append_right w hw')).trans (h j fun hw => hj (List.mem_append_left w' hw))

/-- Any register after a write of the stack pointer, which is register 7 (R22). -/
theorem State.reg_setSp (s : State) (v : Byte) {n : Nat} (h : n < Config.nRegs) :
    (s.setReg Config.spIndex v).reg ⟨n, h⟩ = if n = 7 then v else s.reg ⟨n, h⟩ := by
  simp only [State.reg_setReg, Fin.ext_iff]
  rfl

/-- The stack pointer after a write of any register. -/
theorem State.sp_setReg (s : State) (v : Byte) {n : Nat} (h : n < Config.nRegs) :
    (s.setReg ⟨n, h⟩ v).sp = if n = 7 then v else s.sp := by
  simp only [State.sp, State.reg_setReg, Fin.ext_iff, eq_comm (b := n)]
  rfl

/-! ### The stack pointer as a number -/

theorem sp_ne_zero_iff (s : State) : s.sp ≠ 0 ↔ 1 ≤ s.sp.toNat := by
  rw [ne_eq, BitVec.toNat_eq, Nat.one_le_iff_ne_zero]
  rfl

theorem ne_255_iff (v : Byte) : v ≠ 255 ↔ v.toNat ≤ 254 := by
  have hlt := v.isLt
  rw [ne_eq, BitVec.toNat_eq, show (255 : Byte).toNat = 255 from rfl]
  omega

theorem toNat_sub_one {v : Byte} (h : v ≠ 0) : (v - 1).toNat = v.toNat - 1 := by
  bv_omega

theorem toNat_add_one {v : Byte} (h : v ≠ 255) : (v + 1).toNat = v.toNat + 1 := by
  bv_omega

/-- Everything a completed decrement can do (R161). -/
theorem spAdjust_dec_cases {s d : State} (h : spAdjust (-1) s = .ok d) : s.sp ≠ 0 ∧ d = s.decSp := by
  by_cases h0 : s.sp = 0
  · rw [spAdjust_dec_zero h0] at h
    cases h
  · rw [spAdjust_dec h0] at h
    exact ⟨h0, (Except.ok.inj h).symm⟩

/-- Settles O14: the four cases of the update law. -/
theorem stackPointerUpdateDoesNotWrap : Obligations.StackPointerUpdateDoesNotWrap := by
  intro s
  refine ⟨fun h => spAdjust_dec_zero (BitVec.eq_of_toNat_eq h), fun h => spAdjust_inc_top (BitVec.eq_of_toNat_eq h),
    fun h => ?_, fun h => ?_⟩
  · have h0 := (sp_ne_zero_iff s).mpr h
    exact ⟨_, spAdjust_dec h0, by rw [State.setReg_sp_self, toNat_sub_one h0], .setReg s Config.spIndex _, rfl⟩
  · have h255 := (ne_255_iff s.sp).mpr h
    exact ⟨_, spAdjust_inc h255, by rw [State.setReg_sp_self, toNat_add_one h255], .setReg s Config.spIndex _, rfl⟩

end Sys2Proof.Machine
end

section
/-! SUPPORT. `exec` against `handlerRaise`: the first failing check is the fault taken (R197), and where none fails the
instruction completes. The two halves are proved together, along the statements of a handler. -/

namespace Sys2Proof.Machine

theorem indexRaise_of_lt {a : Byte} (h : a.toNat < Config.nRegs) : indexRaise a = none := if_pos h

theorem indexRaise_of_ge {a : Byte} (h : Config.nRegs ≤ a.toNat) : indexRaise a = some ⟨.outOfRange, a.toNat⟩ :=
  if_neg (Nat.not_lt.mpr h)

/-- A handler's result `r` where `o` is the first of its checks that fails: that `raise`, or, where none fails, a state
in `C`. -/
def Answers (r : Res State) (o : Option Raise) (C : State → Prop) : Prop :=
  match o with
  | some e => r = .error e
  | none => ∃ t, r = .ok t ∧ C t

theorem Answers.imp {r : Res State} {o : Option Raise} {C D : State → Prop} (h : Answers r o C)
    (hCD : ∀ t, C t → D t) : Answers r o D := by
  cases o with
  | some e => exact h
  | none => exact Exists.imp (fun t ht => ⟨ht.1, hCD t ht.2⟩) h

/-- The index check, then the rest of the handler. -/
theorem Answers.regIndex_bind {a : Byte} {f : Fin Config.nRegs → Res State} {o : Option Raise}
    {C : a.toNat < Config.nRegs → State → Prop} (h : ∀ k, Answers (f ⟨a.toNat, k⟩) o (C k)) :
    Answers (regIndex a >>= f) ((indexRaise a).or o) (fun t => ∃ k, C k t) := by
  rcases regIndex_cases a with ⟨k, hk⟩ | ⟨k, hk⟩
  · rw [hk, indexRaise_of_lt k, Option.none_or, res_ok_bind]
    exact (h k).imp fun t ht => ⟨k, ht⟩
  · rw [hk, indexRaise_of_ge k]
    rfl

/-- The index check as a handler's only or last check. -/
theorem Answers.regIndex_pure (a : Byte) (f : Fin Config.nRegs → State) :
    Answers (regIndex a >>= fun i => pure (f i)) (indexRaise a) (fun t => ∃ k, t = f ⟨a.toNat, k⟩) := by
  rw [← Option.or_none (o := indexRaise a)]
  exact .regIndex_bind fun k => ⟨_, rfl, rfl⟩

/-- A push, then the rest of the handler. -/
theorem Answers.stackPush_bind {s : State} {v : State → Byte} {f : State → State} :
    Answers (stackPush v s >>= fun t => pure (f t)) (if s.sp = 0 then some ⟨.outOfRange, -1⟩ else none)
      (fun t => s.sp ≠ 0 ∧ t = f (s.pushed (v s.decSp))) := by
  by_cases h : s.sp = 0
  · rw [if_pos h, stackPush_of_zero v h]
    rfl
  · rw [if_neg h, stackPush_of_ne v h]
    exact ⟨_, rfl, h, rfl⟩

/-- The increment of the stack pointer, then the rest of the handler. -/
theorem Answers.spAdjust_inc_bind {s : State} {f : State → State} :
    Answers (spAdjust 1 s >>= fun t => pure (f t)) (if s.sp = 255 then some ⟨.outOfRange, 256⟩ else none)
      (fun t => s.sp ≠ 255 ∧ t = f (s.setReg Config.spIndex (s.sp + 1))) := by
  by_cases h : s.sp = 255
  · rw [if_pos h, spAdjust_inc_top h]
    rfl
  · rw [if_neg h, spAdjust_inc h]
    exact ⟨_, rfl, h, rfl⟩

theorem toNat_eq_seven_iff {a : Byte} : a.toNat = 7 ↔ a = 7 := (BitVec.toNat_eq (y := (7 : Byte))).symm

/-- The stack pointer after a write of the register that an operand names. -/
theorem State.sp_setReg_operand (s : State) (v : Byte) {a : Byte} (h : a.toNat < Config.nRegs) :
    (s.setReg ⟨a.toNat, h⟩ v).sp = if a = 7 then v else s.sp := by
  simp only [State.sp_setReg, toNat_eq_seven_iff]

/-- Every instruction commits a result that its checks and `Completes` describe. -/
theorem exec_answers (i : Instr) (s : State) :
    ∃ r, exec i s = commit s r ∧ Answers r (handlerRaise i s) (Completes i s) := by
  cases i with
  | hlt => exact ⟨_, rfl, _, rfl, rfl⟩
  | ldi a imm => exact ⟨_, rfl, .regIndex_pure a fun i => (s.setReg i imm).advance 3⟩
  | prn a => exact ⟨_, rfl, .regIndex_pure a fun i => (s.emit (s.reg i)).advance 2⟩
  | add a b =>
    exact ⟨_, rfl, .regIndex_bind fun k => .regIndex_pure b fun j =>
      (s.setReg ⟨a.toNat, k⟩ (s.reg ⟨a.toNat, k⟩ + s.reg j)).advance 3⟩
  | mul a b =>
    exact ⟨_, rfl, .regIndex_bind fun k => .regIndex_pure b fun j =>
      (s.setReg ⟨a.toNat, k⟩ (s.reg ⟨a.toNat, k⟩ * s.reg j)).advance 3⟩
  | cmp a b =>
    exact ⟨_, rfl, .regIndex_bind fun k => .regIndex_pure b fun j =>
      (s.setFl (cmpFlags (s.reg ⟨a.toNat, k⟩) (s.reg j))).advance 3⟩
  | push a | call a => exact ⟨_, rfl, .regIndex_bind fun _ => .stackPush_bind⟩
  | pop a =>
    refine ⟨_, rfl, .regIndex_bind fun k => ?_⟩
    rw [stackTop_eq, res_ok_bind, ← State.sp_setReg_operand s _ k]
    exact Answers.spAdjust_inc_bind.imp fun t ht => ⟨_, rfl, ht⟩
  | ret =>
    simp only [exec, execRet, stackTop_eq, res_ok_bind]
    exact ⟨_, rfl, .spAdjust_inc_bind⟩
  | jmp a => exact ⟨_, rfl, .regIndex_pure a fun i => s.setPc (s.reg i).toNat⟩
  | jeq a =>
    refine ⟨_, rfl, ?_⟩
    simp only [handlerRaise]
    split
    · next hE => exact (Answers.regIndex_pure a fun i => s.setPc (s.reg i).toNat).imp fun t ht => .inl ⟨hE, ht⟩
    · next hE => exact ⟨_, rfl, .inr ⟨Bool.eq_false_of_not_eq_true hE, rfl⟩⟩
  | jne a =>
    refine ⟨_, rfl, ?_⟩
    simp only [handlerRaise]
    split
    · next hE => exact ⟨_, rfl, .inr ⟨hE, rfl⟩⟩
    · next hE =>
      exact (Answers.regIndex_pure a fun i => s.setPc (s.reg i).toNat).imp fun t ht =>
        .inl ⟨Bool.eq_false_of_not_eq_true hE, ht⟩

theorem exec_of_handlerRaise_some {i : Instr} {s : State} {e : Raise} (h : handlerRaise i s = some e) :
    exec i s = .next (raise e s) := by
  obtain ⟨r, hr, ha⟩ := exec_answers i s
  rw [h] at ha
  rw [hr, show r = .error e from ha, commit_error]

theorem exec_of_handlerRaise_none {i : Instr} {s : State} (h : handlerRaise i s = none) :
    ∃ t, exec i s = .next t ∧ Completes i s t := by
  obtain ⟨r, hr, ha⟩ := exec_answers i s
  rw [h] at ha
  obtain ⟨t, rfl, hc⟩ := ha
  exact ⟨t, by rw [hr, commit_ok], hc⟩

/-- Settles O29: the checks of every handler are those of `handlerRaise`, in its order. -/
theorem handlersRaiseTheFirstFailingCheck : Obligations.HandlersRaiseTheFirstFailingCheck :=
  fun _ _ _ => exec_of_handlerRaise_some

end Sys2Proof.Machine
end

section
/-! SUPPORT. What a completed instruction changes and what it leaves, field by field; the frames of `exec` follow with
the fault's frame (R196). -/

namespace Sys2Proof.Machine

theorem regAt_of_lt {a : Byte} (h : a.toNat < Config.nRegs) (s : State) : regAt s a = s.reg ⟨a.toNat, h⟩ := dif_pos h

/-- The register file: only the column "writes" of R23's table. -/
theorem Completes.sameRegsBut {i : Instr} {s t : State} (h : Completes i s t) : SameRegsBut (writtenRegs i) s t := by
  cases i with
  | hlt => cases h; exact fun _ _ => rfl
  | ldi a imm => obtain ⟨k, rfl⟩ := h; exact .setReg s ⟨a.toNat, k⟩ _
  | add a b | mul a b => obtain ⟨k, _, rfl⟩ := h; exact .setReg s ⟨a.toNat, k⟩ _
  | prn a | jmp a => obtain ⟨_, rfl⟩ := h; exact fun _ _ => rfl
  | cmp a b => obtain ⟨_, _, rfl⟩ := h; exact fun _ _ => rfl
  | push a | call a => obtain ⟨_, _, rfl⟩ := h; exact .setReg s Config.spIndex _
  | pop a =>
    obtain ⟨k, u, rfl, -, rfl⟩ := h
    exact SameRegsBut.trans (.setReg s ⟨a.toNat, k⟩ _) (.setReg _ Config.spIndex _)
  | ret => obtain ⟨-, rfl⟩ := h; exact .setReg s Config.spIndex _
  | jeq a | jne a => obtain ⟨-, _, rfl⟩ | ⟨-, rfl⟩ := h <;> exact fun _ _ => rfl

/-- Memory: as it was, or, for PUSH and CALL, with one write at the decremented stack pointer. -/
theorem Completes.mem_cases {i : Instr} {s t : State} (h : Completes i s t) :
    t.mem = s.mem ∨ (i.mnemonic = .push ∨ i.mnemonic = .call) ∧ s.sp ≠ 0 ∧
      ∃ v, t.mem = s.mem.write (s.sp - 1).toNat v := by
  cases i with
  | hlt => cases h; exact .inl rfl
  | ldi a imm | prn a | jmp a => obtain ⟨_, rfl⟩ := h; exact .inl rfl
  | add a b | mul a b | cmp a b => obtain ⟨_, _, rfl⟩ := h; exact .inl rfl
  | push a => obtain ⟨_, h0, rfl⟩ := h; exact .inr ⟨.inl rfl, h0, _, rfl⟩
  | call a => obtain ⟨_, h0, rfl⟩ := h; exact .inr ⟨.inr rfl, h0, _, rfl⟩
  | pop a => obtain ⟨_, u, rfl, -, rfl⟩ := h; exact .inl rfl
  | ret => obtain ⟨-, rfl⟩ := h; exact .inl rfl
  | jeq a | jne a => obtain ⟨-, _, rfl⟩ | ⟨-, rfl⟩ := h <;> exact .inl rfl

theorem Completes.sameMem {i : Instr} {s t : State} (h : Completes i s t) (hp : i.mnemonic ≠ .push)
    (hc : i.mnemonic ≠ .call) : SameMem s t := by
  intro x
  rcases h.mem_cases with hm | ⟨hi, -⟩
  · rw [hm]
  · exact absurd hi (not_or.mpr ⟨hp, hc⟩)

/-- At most the cell at the decremented stack pointer changes. -/
theorem Completes.sameMemBut {i : Instr} {s t : State} (h : Completes i s t) : SameMemBut s.decSp.sp.toNat s t := by
  intro x hx
  rw [State.setReg_sp_self] at hx
  rcases h.mem_cases with hm | ⟨-, -, v, hm⟩
  · rw [hm]
  · rw [hm, Memory.read_write_ne _ _ hx]

theorem Completes.memWf {i : Instr} {s t : State} (h : Completes i s t) (hs : s.mem.wf) : t.mem.wf := by
  rcases h.mem_cases with hm | ⟨-, -, v, hm⟩
  · rwa [hm]
  · rw [hm]
    exact Memory.write_wf hs (s.sp - 1).isLt v

/-- OUT, RUN and FAULT: only PRN appends to OUT, one value, and only HLT writes RUN. -/
theorem Completes.control {i : Instr} {s t : State} (h : Completes i s t) :
    (t.out = s.out ∨ i.mnemonic = .prn ∧ ∃ v, t.out = s.out ++ [v]) ∧
      t.run = (if i.mnemonic = .hlt then .halted else s.run) ∧ t.fault = s.fault := by
  cases i with
  | hlt => cases h; exact ⟨.inl rfl, rfl, rfl⟩
  | prn a => obtain ⟨_, rfl⟩ := h; exact ⟨.inr ⟨rfl, _, rfl⟩, rfl, rfl⟩
  | ldi a imm | jmp a => obtain ⟨_, rfl⟩ := h; exact ⟨.inl rfl, rfl, rfl⟩
  | add a b | mul a b | cmp a b => obtain ⟨_, _, rfl⟩ := h; exact ⟨.inl rfl, rfl, rfl⟩
  | push a | call a => obtain ⟨_, _, rfl⟩ := h; exact ⟨.inl rfl, rfl, rfl⟩
  | pop a => obtain ⟨_, u, rfl, -, rfl⟩ := h; exact ⟨.inl rfl, rfl, rfl⟩
  | ret => obtain ⟨-, rfl⟩ := h; exact ⟨.inl rfl, rfl, rfl⟩
  | jeq a | jne a => obtain ⟨-, _, rfl⟩ | ⟨-, rfl⟩ := h <;> exact ⟨.inl rfl, rfl, rfl⟩

theorem Completes.run_of_ne_hlt {i : Instr} {s t : State} (h : Completes i s t) (hi : i.mnemonic ≠ .hlt) :
    t.run = s.run := by
  obtain ⟨-, hrun, -⟩ := h.control
  rw [hrun, if_neg hi]

theorem Completes.fault_eq {i : Instr} {s t : State} (h : Completes i s t) : t.fault = s.fault := by
  obtain ⟨-, -, hfault⟩ := h.control
  exact hfault

theorem Completes.out_eq {i : Instr} {s t : State} (h : Completes i s t) (hi : i.mnemonic ≠ .prn) : t.out = s.out := by
  obtain ⟨hout, -, -⟩ := h.control
  exact hout.resolve_right fun hp => hi hp.1

/-- Every instruction but HLT, PRN and CMP leaves FL, RUN, FAULT and OUT. -/
theorem Completes.sameControl {i : Instr} {s t : State} (h : Completes i s t) (hhlt : i.mnemonic ≠ .hlt)
    (hprn : i.mnemonic ≠ .prn) (hcmp : i.mnemonic ≠ .cmp) : SameControl s t :=
  ⟨h.fl_eq hcmp, h.run_of_ne_hlt hhlt, h.fault_eq, h.out_eq hprn⟩

/-- The pc of R27's table. -/
theorem Completes.pc_eq {i : Instr} {s t : State} (h : Completes i s t) : t.pc = nextPc i s := by
  cases i with
  | hlt => cases h; rfl
  | ldi a imm | prn a => obtain ⟨_, rfl⟩ := h; rfl
  | add a b | mul a b | cmp a b => obtain ⟨_, _, rfl⟩ := h; rfl
  | push a => obtain ⟨_, _, rfl⟩ := h; rfl
  | pop a => obtain ⟨_, u, rfl, -, rfl⟩ := h; rfl
  | ret => obtain ⟨-, rfl⟩ := h; rfl
  | call a =>
    obtain ⟨k, h0, rfl⟩ := h
    simp only [State.setPc_pc, State.reg_setSp, toNat_eq_seven_iff, nextPc, regAt_of_lt k]
    split
    · exact toNat_sub_one h0
    · rfl
  | jmp a => obtain ⟨k, rfl⟩ := h; rw [State.setPc_pc, nextPc, regAt_of_lt k]
  | jeq a | jne a =>
    simp only [nextPc]
    obtain ⟨hE, k, rfl⟩ | ⟨hE, rfl⟩ := h
    · simp [hE, regAt_of_lt k]
    · simp [hE]

/-- Settles O30: where no check fails the instruction completes, and the fields are those of a completed instruction. -/
theorem everyInstructionCompletesWithItsNextPc : Obligations.EveryInstructionCompletesWithItsNextPc := by
  intro i s h
  obtain ⟨t, ht, hc⟩ := exec_of_handlerRaise_none h
  obtain ⟨-, hrun, hfault⟩ := hc.control
  exact ⟨t, ht, hc.pc_eq, hfault, hrun⟩

/-- Settles O31: a fault writes no register, and a completed instruction only those of its column. -/
theorem registersNotInTheTableAreUnchanged : Obligations.RegistersNotInTheTableAreUnchanged := by
  intro i s t h
  rcases exec_cases h with ⟨e, -, rfl⟩ | hc
  · exact fun _ _ => rfl
  · exact hc.sameRegsBut

/-- Memory changes at most at the address the decrement gives; where the decrement faults, nowhere. -/
theorem exec_mem_read_of_ne {i : Instr} {s t : State} (h : exec i s = .next t) {x : Nat}
    (hx : ∀ d, spAdjust (-1) s = .ok d → x ≠ d.sp.toNat) : t.mem.read x = s.mem.read x := by
  rcases exec_cases h with ⟨e, -, rfl⟩ | hc
  · rfl
  · rcases hc.mem_cases with hm | ⟨-, h0, -⟩
    · rw [hm]
    · exact hc.sameMemBut x (hx _ (spAdjust_dec h0))

theorem exec_sameMem {i : Instr} {s t : State} (h : exec i s = .next t) (hp : i.mnemonic ≠ .push)
    (hc : i.mnemonic ≠ .call) : SameMem s t := by
  rcases exec_cases h with ⟨e, -, rfl⟩ | h
  · exact fun _ => rfl
  · exact h.sameMem hp hc

/-- Settles O32: the frame of memory, for the two instructions that store and for the others. -/
theorem onlyPushAndCallStoreAndOneByte : Obligations.OnlyPushAndCallStoreAndOneByte := by
  intro i s t h
  cases i with
  | push a | call a => exact fun x hx => exec_mem_read_of_ne h hx
  | hlt | ret | ldi | prn | add | mul | cmp | pop | jmp | jeq | jne => exact exec_sameMem h nofun nofun

/-- Settles O34: a fault leaves OUT, and of the completed instructions only PRN appends. -/
theorem onlyPrnWritesOut : Obligations.OnlyPrnWritesOut := by
  intro i s t h
  rcases exec_cases h with ⟨e, -, rfl⟩ | hc
  · exact .inl rfl
  · obtain ⟨hout, -, -⟩ := hc.control
    exact hout

end Sys2Proof.Machine
end

section
/-! SUPPORT. The instructions one by one. The faults come from `handlerRaise`, the frames from the lemmas of `Completes`;
what is left to each is the value it computes. -/

namespace Sys2Proof.Machine

/-! ### The checks of each shape of instruction -/

theorem indexRaise_or_of_ge {a : Byte} (h : Config.nRegs ≤ a.toNat) (o : Option Raise) :
    (indexRaise a).or o = some ⟨.outOfRange, a.toNat⟩ := by
  rw [indexRaise_of_ge h, Option.some_or]

theorem indexRaise_or_of_lt {a : Byte} (h : a.toNat < Config.nRegs) (o : Option Raise) : (indexRaise a).or o = o := by
  rw [indexRaise_of_lt h, Option.none_or]

/-- POP into a register other than 7 increments the pointer it popped from. -/
theorem handlerRaise_pop_of_ne {a : Byte} (h : a.toNat < Config.nRegs) (h7 : a.toNat ≠ 7) (s : State) :
    handlerRaise (.pop a) s = if s.sp = 255 then some ⟨.outOfRange, 256⟩ else none := by
  rw [handlerRaise, indexRaise_or_of_lt h, if_neg (mt toNat_eq_seven_iff.mpr h7)]

/-- `POP R7` increments the byte it popped (R165). -/
theorem handlerRaise_pop_sp (s : State) :
    handlerRaise (.pop 7) s = if s.mem.read s.sp.toNat = 255 then some ⟨.outOfRange, 256⟩ else none := by
  rw [handlerRaise, indexRaise_or_of_lt (by decide), if_pos rfl]

/-! ### HLT, LDI, PRN -/

theorem exec_hlt (s : State) : exec .hlt s = .next (s.setRun .halted) := rfl

/-- Settles O15: HLT has no check, and its write is to RUN. -/
theorem hltSetsRunAndNothingElse : Obligations.HltSetsRunAndNothingElse := exec_hlt

/-- Settles O16: the register written reads as the immediate. -/
theorem ldiLoadsTheImmediate : Obligations.LdiLoadsTheImmediate := by
  refine fun a imm s => ⟨fun h => exec_of_handlerRaise_some (indexRaise_of_ge h), fun h => ?_⟩
  obtain ⟨t, ht, hc⟩ := exec_of_handlerRaise_none (i := .ldi a imm) (s := s) (indexRaise_of_lt h)
  have ⟨_, e⟩ := hc
  have hreg : t.reg ⟨a.toNat, h⟩ = imm := by rw [e, State.advance_reg, State.reg_setReg_self]
  exact ⟨t, ht, hreg, hc.sameRegsBut, hc.pc_eq, hc.sameMem nofun nofun, hc.sameControl nofun nofun nofun⟩

/-- Settles O17: the value emitted is the register's. -/
theorem prnAppendsTheRegisterToOut : Obligations.PrnAppendsTheRegisterToOut := by
  refine fun a s => ⟨fun h => exec_of_handlerRaise_some (indexRaise_of_ge h), fun h => ?_⟩
  obtain ⟨t, ht, hc⟩ := exec_of_handlerRaise_none (i := .prn a) (s := s) (indexRaise_of_lt h)
  have ⟨_, e⟩ := hc
  have hout : t.out = s.out ++ [s.reg ⟨a.toNat, h⟩] := by rw [e, State.advance_out, State.emit_out]
  exact ⟨t, ht, hout, hc.sameRegsBut, hc.pc_eq, hc.sameMem nofun nofun, hc.fl_eq nofun, hc.run_of_ne_hlt nofun,
    hc.fault_eq⟩

/-! ### ADD, MUL, CMP -/

/-- The three outcomes of the index checks of an instruction with two register operands, `opa` before `opb` (R197). -/
theorem exec_two_operands {i : Instr} {a b : Byte} {s : State}
    (hi : handlerRaise i s = (indexRaise a).or (indexRaise b)) :
    (Config.nRegs ≤ a.toNat → exec i s = .next (raise ⟨.outOfRange, a.toNat⟩ s)) ∧
      (a.toNat < Config.nRegs → Config.nRegs ≤ b.toNat → exec i s = .next (raise ⟨.outOfRange, b.toNat⟩ s)) ∧
      (a.toNat < Config.nRegs → b.toNat < Config.nRegs → ∃ t, exec i s = .next t ∧ Completes i s t) := by
  refine ⟨fun h => exec_of_handlerRaise_some ?_, fun h k => exec_of_handlerRaise_some ?_,
    fun h k => exec_of_handlerRaise_none ?_⟩
  · rw [hi, indexRaise_or_of_ge h]
  · rw [hi, indexRaise_or_of_lt h, indexRaise_of_ge k]
  · rw [hi, indexRaise_or_of_lt h, indexRaise_of_lt k]

/-- Settles O18: the register written holds the sum of the two old values. -/
theorem addWritesTheSumModulo256 : Obligations.AddWritesTheSumModulo256 := by
  intro a b s
  obtain ⟨hopa, hopb, hok⟩ := exec_two_operands (i := .add a b) (s := s) rfl
  refine ⟨hopa, hopb, fun h k => ?_⟩
  obtain ⟨t, ht, hc⟩ := hok h k
  have ⟨_, _, e⟩ := hc
  have hsum : (t.reg ⟨a.toNat, h⟩).toNat = ((s.reg ⟨a.toNat, h⟩).toNat + (s.reg ⟨b.toNat, k⟩).toNat) % 256 := by
    rw [e, State.advance_reg, State.reg_setReg_self, BitVec.toNat_add]
  exact ⟨t, ht, hsum, hc.sameRegsBut, hc.pc_eq, hc.sameMem nofun nofun, hc.sameControl nofun nofun nofun⟩

/-- Settles O19: the register written holds the product of the two old values. -/
theorem mulWritesTheProductModulo256 : Obligations.MulWritesTheProductModulo256 := by
  intro a b s
  obtain ⟨hopa, hopb, hok⟩ := exec_two_operands (i := .mul a b) (s := s) rfl
  refine ⟨hopa, hopb, fun h k => ?_⟩
  obtain ⟨t, ht, hc⟩ := hok h k
  have ⟨_, _, e⟩ := hc
  have hprod : (t.reg ⟨a.toNat, h⟩).toNat = ((s.reg ⟨a.toNat, h⟩).toNat * (s.reg ⟨b.toNat, k⟩).toNat) % 256 := by
    rw [e, State.advance_reg, State.reg_setReg_self, BitVec.toNat_mul]
  exact ⟨t, ht, hprod, hc.sameRegsBut, hc.pc_eq, hc.sameMem nofun nofun, hc.sameControl nofun nofun nofun⟩

/-- Settles O20: FL is the flags byte of the two old values. -/
theorem cmpWritesFlAndNoRegister : Obligations.CmpWritesFlAndNoRegister := by
  intro a b s
  obtain ⟨hopa, hopb, hok⟩ := exec_two_operands (i := .cmp a b) (s := s) rfl
  refine ⟨hopa, hopb, fun h k => ?_⟩
  obtain ⟨t, ht, hc⟩ := hok h k
  have ⟨_, _, e⟩ := hc
  refine ⟨t, ht, ?_, hc.sameRegsBut, hc.pc_eq, hc.sameMem nofun nofun, hc.run_of_ne_hlt nofun, hc.fault_eq,
    hc.out_eq nofun⟩
  simp only [e, State.advance_fl, State.setFl_fl, cmpFlags_eq, BitVec.toNat_inj]

/-! ### PUSH and CALL -/

theorem State.decSp_sp (s : State) : s.decSp.sp = s.sp - 1 := State.setReg_sp_self s _

theorem State.decSp_toNat {s : State} (h : s.sp ≠ 0) : s.decSp.sp.toNat + 1 = s.sp.toNat := by
  have hpos := (sp_ne_zero_iff s).mp h
  rw [State.decSp_sp, toNat_sub_one h]
  omega

/-- The byte pushed is the one at the decremented pointer. -/
theorem State.pushed_read_self {s : State} (h : s.mem.wf) (v : Byte) : (s.pushed v).mem.read s.decSp.sp.toNat = v := by
  rw [State.decSp_sp]
  exact Memory.read_write_self h.1 _ v

/-- The register that PUSH stores and CALL jumps to is read after the decrement (D14). -/
theorem State.decSp_reg (s : State) {n : Nat} (h : n < Config.nRegs) :
    s.decSp.reg ⟨n, h⟩ = if n = 7 then s.decSp.sp else s.reg ⟨n, h⟩ := by
  rw [State.decSp_sp]
  exact State.reg_setSp s _ h

/-- The three outcomes of the checks of PUSH and CALL: the index, then the stack pointer's range (R197). -/
theorem exec_index_then_push {i : Instr} {a : Byte} {s : State}
    (hi : handlerRaise i s = (indexRaise a).or (if s.sp = 0 then some ⟨.outOfRange, -1⟩ else none)) :
    (Config.nRegs ≤ a.toNat → exec i s = .next (raise ⟨.outOfRange, a.toNat⟩ s)) ∧
      (a.toNat < Config.nRegs → s.sp.toNat = 0 → exec i s = .next (raise ⟨.outOfRange, -1⟩ s)) ∧
      (a.toNat < Config.nRegs → s.sp ≠ 0 → ∃ t, exec i s = .next t ∧ Completes i s t) := by
  refine ⟨fun h => exec_of_handlerRaise_some ?_, fun h h0 => exec_of_handlerRaise_some ?_,
    fun h h0 => exec_of_handlerRaise_none ?_⟩
  · rw [hi, indexRaise_or_of_ge h]
  · rw [hi, indexRaise_or_of_lt h, if_pos (BitVec.eq_of_toNat_eq h0)]
  · rw [hi, indexRaise_or_of_lt h, if_neg h0]

/-- Settles O21: the decrement completes only above 0, and the cell there holds the register read after it. -/
theorem pushStoresBelowTheStackPointer : Obligations.PushStoresBelowTheStackPointer := by
  intro a s
  obtain ⟨hopa, hzero, hok⟩ := exec_index_then_push (i := .push a) (s := s) rfl
  refine ⟨hopa, hzero, fun h d hwf hd => ?_⟩
  obtain ⟨h0, rfl⟩ := spAdjust_dec_cases hd
  obtain ⟨t, ht, hc⟩ := hok h h0
  have ⟨_, _, e⟩ := hc
  have hsp : t.sp = s.decSp.sp := by rw [e]; rfl
  have hcell : t.mem.read s.decSp.sp.toNat = if a.toNat = 7 then s.decSp.sp else s.reg ⟨a.toNat, h⟩ := by
    rw [e, State.advance_mem, State.pushed_read_self hwf, State.decSp_reg]
  exact ⟨t, ht, State.decSp_toNat h0, hsp, hc.sameRegsBut, hcell, hc.sameMemBut, hc.pc_eq,
    hc.sameControl nofun nofun nofun⟩

/-- Settles O24: as PUSH, with the return address in the cell; in a step's range of pc it is a byte as it stands. -/
theorem callPushesTheReturnAddressAndJumps : Obligations.CallPushesTheReturnAddressAndJumps := by
  intro a s
  obtain ⟨hopa, hzero, hok⟩ := exec_index_then_push (i := .call a) (s := s) rfl
  refine ⟨hopa, hzero, fun h d hwf hp hd => ?_⟩
  obtain ⟨h0, rfl⟩ := spAdjust_dec_cases hd
  obtain ⟨t, ht, hc⟩ := hok h h0
  have ⟨_, _, e⟩ := hc
  have hsp : t.sp = s.decSp.sp := by rw [e]; rfl
  have hcell : (t.mem.read s.decSp.sp.toNat).toNat = s.pc + 2 := by
    rw [e, State.setPc_mem, State.pushed_read_self hwf, BitVec.toNat_ofNat]
    omega
  have hpc : t.pc = (if a.toNat = 7 then s.decSp.sp else s.reg ⟨a.toNat, h⟩).toNat := by
    rw [e, State.setPc_pc, State.decSp_reg]
  exact ⟨t, ht, State.decSp_toNat h0, hsp, hc.sameRegsBut, hcell, hc.sameMemBut, hpc,
    hc.sameControl nofun nofun nofun⟩

/-! ### POP and RET -/

/-- Settles O22: the pointer incremented is the old one, since the register written is another. -/
theorem popLoadsFromTheStackPointer : Obligations.PopLoadsFromTheStackPointer := by
  refine fun a s h7 =>
    ⟨fun h => exec_of_handlerRaise_some (indexRaise_or_of_ge h _), fun h h255 => ?_, fun h h254 => ?_⟩
  · apply exec_of_handlerRaise_some
    rw [handlerRaise_pop_of_ne h h7, if_pos (BitVec.eq_of_toNat_eq h255)]
  · have hne := (ne_255_iff s.sp).mpr h254
    obtain ⟨t, ht, hc⟩ := exec_of_handlerRaise_none (i := .pop a) (s := s) (by
      rw [handlerRaise_pop_of_ne h h7, if_neg hne])
    have ⟨_, u, hu, _, e⟩ := hc
    have hreg : t.reg ⟨a.toNat, h⟩ = s.mem.read s.sp.toNat := by
      rw [e, State.advance_reg, State.reg_setSp, if_neg h7, hu, State.reg_setReg_self]
    have hsp : t.sp.toNat = s.sp.toNat + 1 := by
      rw [e, State.advance_sp, State.setReg_sp_self, hu, State.sp_setReg, if_neg h7, toNat_add_one hne]
    exact ⟨t, ht, hreg, hsp, hc.sameRegsBut, hc.pc_eq, hc.sameMem nofun nofun, hc.sameControl nofun nofun nofun⟩

/-- Settles O23: the pointer incremented is the byte just popped into it. -/
theorem popIntoTheStackPointerAddsOne : Obligations.PopIntoTheStackPointerAddsOne := by
  refine fun s => ⟨fun h => ?_, fun h => ?_⟩
  · apply exec_of_handlerRaise_some
    rw [handlerRaise_pop_sp, if_pos h]
  · obtain ⟨t, ht, hc⟩ := exec_of_handlerRaise_none (i := .pop 7) (s := s) (by rw [handlerRaise_pop_sp, if_neg h])
    have ⟨_, u, hu, _, e⟩ := hc
    have hsp : t.sp.toNat = (s.mem.read s.sp.toNat).toNat + 1 := by
      rw [e, State.advance_sp, State.setReg_sp_self, hu, State.sp_setReg_operand, if_pos rfl, toNat_add_one h]
    have hregs : SameRegsBut [7] s t := fun j hj => hc.sameRegsBut j (by simpa [writtenRegs] using hj)
    exact ⟨t, ht, hsp, hregs, hc.pc_eq, hc.sameMem nofun nofun, hc.sameControl nofun nofun nofun⟩

/-- Settles O25: the pc of R27's table is the byte at the old stack pointer. -/
theorem retPopsTheProgramCounter : Obligations.RetPopsTheProgramCounter := by
  refine fun s => ⟨fun h => ?_, fun h => ?_⟩
  · apply exec_of_handlerRaise_some
    rw [handlerRaise, if_pos (BitVec.eq_of_toNat_eq h)]
  · have hne := (ne_255_iff s.sp).mpr h
    obtain ⟨t, ht, hc⟩ := exec_of_handlerRaise_none (i := .ret) (s := s) (by rw [handlerRaise, if_neg hne])
    have ⟨_, e⟩ := hc
    have hsp : t.sp.toNat = s.sp.toNat + 1 := by
      rw [e, State.setPc_sp, State.setReg_sp_self, toNat_add_one hne]
    exact ⟨t, ht, hc.pc_eq, hsp, hc.sameRegsBut, hc.sameMem nofun nofun, hc.sameControl nofun nofun nofun⟩

/-! ### JMP, JEQ, JNE -/

theorem exec_jmp_of_lt {a : Byte} (h : a.toNat < Config.nRegs) (s : State) :
    exec (.jmp a) s = .next (s.setPc (s.reg ⟨a.toNat, h⟩).toNat) := by
  simp only [exec, execJmp, jumpTo, regIndex_of_lt h, res_ok_bind, res_pure, commit_ok]

theorem exec_jmp_of_ge {a : Byte} (h : Config.nRegs ≤ a.toNat) (s : State) :
    exec (.jmp a) s = .next (raise ⟨.outOfRange, a.toNat⟩ s) :=
  exec_of_handlerRaise_some (indexRaise_of_ge h)

/-- With E set, JEQ is the jump. -/
theorem exec_jeq_of_set {s : State} (h : s.flagE = true) (a : Byte) : exec (.jeq a) s = exec (.jmp a) s := by
  simp only [exec, execJeq, execJmp, if_pos h]

/-- With E clear, JEQ goes on, its operand not examined (D14). -/
theorem exec_jeq_of_clear {s : State} (h : s.flagE = false) (a : Byte) : exec (.jeq a) s = .next (s.advance 2) := by
  simp only [exec, execJeq, if_neg (Bool.eq_false_iff.mp h), res_pure, commit_ok]

/-- With E clear, JNE is the jump. -/
theorem exec_jne_of_clear {s : State} (h : s.flagE = false) (a : Byte) : exec (.jne a) s = exec (.jmp a) s := by
  simp only [exec, execJne, execJmp, if_neg (Bool.eq_false_iff.mp h)]

/-- With E set, JNE goes on, its operand not examined (D14). -/
theorem exec_jne_of_set {s : State} (h : s.flagE = true) (a : Byte) : exec (.jne a) s = .next (s.advance 2) := by
  simp only [exec, execJne, if_pos h, res_pure, commit_ok]

/-- Settles O26: the two outcomes of the jump. -/
theorem jmpLoadsTheProgramCounter : Obligations.JmpLoadsTheProgramCounter :=
  fun _ s => ⟨fun h => exec_jmp_of_ge h s, fun h => exec_jmp_of_lt h s⟩

/-- Settles O27: JEQ is the jump where E is set, and goes on where it is clear. -/
theorem jeqJumpsWhenEqual : Obligations.JeqJumpsWhenEqual :=
  fun a s => ⟨fun hE h => (exec_jeq_of_set hE a).trans (exec_jmp_of_ge h s),
    fun hE h => (exec_jeq_of_set hE a).trans (exec_jmp_of_lt h s), fun hE => exec_jeq_of_clear hE a⟩

/-- Settles O28: JNE is the jump where E is clear, and goes on where it is set. -/
theorem jneJumpsWhenNotEqual : Obligations.JneJumpsWhenNotEqual :=
  fun a s => ⟨fun hE h => (exec_jne_of_clear hE a).trans (exec_jmp_of_ge h s),
    fun hE h => (exec_jne_of_clear hE a).trans (exec_jmp_of_lt h s), fun hE => exec_jne_of_set hE a⟩

/-- Whatever the jump answers, E gives it to exactly one of JEQ and JNE, and the other goes on. -/
theorem exec_jeq_jne_of_jmp {a : Byte} {s : State} {o : Outcome} (ho : exec (.jmp a) s = o) :
    (s.flagE = true → exec (.jeq a) s = o ∧ exec (.jne a) s = .next (s.advance 2)) ∧
      (s.flagE = false → exec (.jeq a) s = .next (s.advance 2) ∧ exec (.jne a) s = o) :=
  ⟨fun hE => ⟨(exec_jeq_of_set hE a).trans ho, exec_jne_of_set hE a⟩,
    fun hE => ⟨exec_jeq_of_clear hE a, (exec_jne_of_clear hE a).trans ho⟩⟩

/-- Settles O35: the jump has two outcomes, by its operand, and E gives each to one of the two instructions. -/
theorem exactlyOneOfJeqAndJneIsTaken : Obligations.ExactlyOneOfJeqAndJneIsTaken :=
  fun _ s => ⟨fun h => exec_jeq_jne_of_jmp (exec_jmp_of_lt h s), fun h => exec_jeq_jne_of_jmp (exec_jmp_of_ge h s)⟩

end Sys2Proof.Machine
end

section
/-! SUPPORT. The step from its parts: which fetch, decode or handler decides it (R110 to R114), and what it answers. -/

namespace Sys2Proof.Machine

/-! ### A running state's step -/

theorem step_of_fetchDecode_ok {s : State} {i : Instr} (hr : s.run = .running) (h : fetchDecode s = .ok i) :
    step s = exec i s := by
  simp only [step, noStep, hr, h]

theorem step_of_fetchDecode_error {s : State} {e : Raise} (hr : s.run = .running) (h : fetchDecode s = .error e) :
    step s = .next (raise e s) := by
  simp only [step, noStep, hr, h]

theorem fetchDecode_of_fetch_error {s : State} {e : Raise} (h : fetch s = .error e) : fetchDecode s = .error e := by
  rw [fetchDecode, h, res_error_bind]

theorem step_of_decoded {s : State} {i : Instr} (hr : s.run = .running) (hp : s.pc ≤ 253) (h : s.decoded = .ok i) :
    step s = exec i s :=
  step_of_fetchDecode_ok hr (fetchDecode_ok hp h)

theorem step_of_illegal {s : State} {opc : Byte} (hr : s.run = .running) (hp : s.pc ≤ 253)
    (h : s.decoded = .error (.illegalInstruction opc)) : step s = .next (raise ⟨.illegalInstruction, opc.toNat⟩ s) :=
  step_of_fetchDecode_error hr (fetchDecode_illegal hp h)

theorem step_of_fetch_past {s : State} (hr : s.run = .running) (h : 253 < s.pc) (h' : s.pc ≤ 256) :
    step s = .next (raise ⟨.outOfRange, 256⟩ s) :=
  step_of_fetchDecode_error hr (fetchDecode_of_fetch_error (fetch_of_gt h h'))

/-- Past the top of MEM the first of the three reads is the one that raises. -/
theorem fetch_of_first_out {s : State} (h : Config.memSize ≤ s.pc) : fetch s = .error ⟨.outOfRange, s.pc⟩ := by
  rw [fetch, memRead_nat_out h, res_error_bind]

/-- The bytes at a pc whose byte is an opcode and whose next byte is `a`. -/
theorem decoded_of_opcode {s : State} {k : Mnemonic} {a : Byte} (hk : s.mem.read s.pc = Config.opcodes k)
    (ha : s.mem.read (s.pc + 1) = a) : s.decoded = .ok (k.assemble a (s.mem.read (s.pc + 2))) := by
  rw [State.decoded, hk, ha, decode_opcode]

theorem step_of_opcode {s : State} {k : Mnemonic} {a : Byte} (hr : s.run = .running) (hp : s.pc ≤ 253)
    (hk : s.mem.read s.pc = Config.opcodes k) (ha : s.mem.read (s.pc + 1) = a) :
    step s = exec (k.assemble a (s.mem.read (s.pc + 2))) s :=
  step_of_decoded hr hp (decoded_of_opcode hk ha)

/-- The three ways a step goes, by where it fetches and what the bytes decode to. -/
theorem cycle_cases (s : State) :
    253 < s.pc ∨ s.pc ≤ 253 ∧ ((∃ opc, s.decoded = .error (.illegalInstruction opc)) ∨ ∃ i, s.decoded = .ok i) := by
  by_cases hp : s.pc ≤ 253
  · refine .inr ⟨hp, ?_⟩
    cases hd : s.decoded with
    | ok i => exact .inr ⟨i, rfl⟩
    | error x => exact .inl ⟨_, congrArg Except.error (decode_error hd)⟩
  · exact .inl (Nat.not_le.mp hp)

/-- Settles O36: fetch and decode answer the instruction, and the step is its `exec`. -/
theorem stepRunsTheDecodedInstruction : Obligations.StepRunsTheDecodedInstruction :=
  fun _ _ => step_of_decoded

/-- A halted machine takes no step (R110, R117). -/
theorem step_of_halted {s : State} (h : s.run = .halted) : step s = .fault .halted := by
  rw [step, noStep, h]

theorem step_of_faulted {s : State} (h : s.run = .faulted) : step s = .fault .faulted := by
  rw [step, noStep, h]

/-- Settles O37: each clause is one outcome of the fetch or of the decoder. -/
theorem stepFollowsTheCycle : Obligations.StepFollowsTheCycle := by
  intro s
  refine ⟨step_of_halted, step_of_faulted, fun hr =>
    ⟨fun hp => ?_, fun hp => ?_, fun hp => ?_, fun hp => ⟨fun i hd => ?_, fun hk => ?_⟩⟩⟩
  · exact step_of_fetchDecode_error hr (fetchDecode_of_fetch_error (fetch_of_first_out hp))
  · rw [step_of_fetch_past hr (by omega) (by omega), show (s.pc : Int) + 1 = 256 by omega]
  · rw [step_of_fetch_past hr (by omega) (by omega), show (s.pc : Int) + 2 = 256 by omega]
  · exact step_of_decoded hr (by omega) hd
  · exact step_of_illegal hr (by omega) (decode_of_ne_opcode hk _ _)

/-- Settles O39: a fault is a next state, and so is whatever an instruction answers. -/
theorem everyRunningStateHasANextState : Obligations.EveryRunningStateHasANextState := by
  intro s hr
  rcases fetchDecode_cases s with ⟨e, he, -⟩ | ⟨i, hi, -⟩
  · exact ⟨_, step_of_fetchDecode_error hr he⟩
  · rw [step_of_fetchDecode_ok hr hi]
    exact exec_next i s

/-! ### The order of the checks (R197) -/

theorem stepRaise_of_fetch_past {s : State} (h : 253 < s.pc) : stepRaise s = some ⟨.outOfRange, 256⟩ := if_pos h

theorem stepRaise_of_illegal {s : State} {opc : Byte} (hp : s.pc ≤ 253)
    (hd : s.decoded = .error (.illegalInstruction opc)) : stepRaise s = some ⟨.illegalInstruction, opc.toNat⟩ := by
  rw [State.decoded] at hd
  rw [stepRaise, if_neg (Nat.not_lt.mpr hp), hd]

theorem stepRaise_of_decoded {s : State} {i : Instr} (hp : s.pc ≤ 253) (hd : s.decoded = .ok i) :
    stepRaise s = handlerRaise i s := by
  rw [State.decoded] at hd
  rw [stepRaise, if_neg (Nat.not_lt.mpr hp), hd]

/-- A completed instruction of a running state has not faulted. -/
theorem Completes.run_ne_faulted {i : Instr} {s t : State} (h : Completes i s t) (hr : s.run = .running) :
    t.run ≠ .faulted := by
  obtain ⟨-, hrun, -⟩ := h.control
  rw [hrun, hr]
  split <;> nofun

/-- Settles O38: the fetch range, the decoder and the handler's checks in turn. -/
theorem stepTakesTheFirstFaultOfTheOrder : Obligations.StepTakesTheFirstFaultOfTheOrder := by
  intro s hr h256
  rcases cycle_cases s with hp | ⟨hp, ⟨opc, hd⟩ | ⟨i, hd⟩⟩
  · rw [stepRaise_of_fetch_past hp, step_of_fetch_past hr hp h256]
    exact ⟨fun e he => by rw [Option.some.inj he], nofun⟩
  · rw [stepRaise_of_illegal hp hd, step_of_illegal hr hp hd]
    exact ⟨fun e he => by rw [Option.some.inj he], nofun⟩
  · rw [stepRaise_of_decoded hp hd, step_of_decoded hr hp hd]
    refine ⟨fun e => exec_of_handlerRaise_some, fun h => ?_⟩
    obtain ⟨t, ht, hc⟩ := exec_of_handlerRaise_none h
    exact ⟨t, ht, hc.run_ne_faulted hr, hc.fault_eq⟩

/-! ### A word of the opcode table -/

theorem decodeTableWord_some {nbits w : Nat} {i : Instr} (h : decodeTableWord nbits w = some i) :
    ∃ opc opa opb, tableBytes nbits w = [opc, opa, opb] ∧ decode opc opa opb = .ok i := by
  unfold decodeTableWord at h
  split at h
  · next opc opa opb hbytes =>
    refine ⟨opc, opa, opb, hbytes, ?_⟩
    cases hd : decode opc opa opb with
    | ok j => rw [hd] at h; exact congrArg Except.ok (Option.some.inj h)
    | error x => rw [hd] at h; cases h
  · cases h

/-- Three bytes placed at pc are the three that the next fetch decodes. -/
theorem placeBytes_decoded {s : State} (h : s.mem.wf) (hp : s.pc ≤ 253) (opc opa opb : Byte) :
    (placeBytes [opc, opa, opb] s.pc s).decoded = decode opc opa opb := by
  have hread := placeBytes_read_add (bs := [opc, opa, opb]) (a := s.pc) h (by simp; omega)
  have hopc := hread 0
  have hopa := hread 1
  have hopb := hread 2
  rw [Nat.add_zero] at hopc
  rw [State.decoded, placeBytes_pc, hopc, hopa, hopb]
  rfl

/-- Settles O5: the placed bytes are the ones fetched, and placing them changes neither RUN nor pc. -/
theorem placedTableWordIsWhatStepRuns : Obligations.PlacedTableWordIsWhatStepRuns := by
  intro s nbits w i hwf hr hp hi
  obtain ⟨opc, opa, opb, hbytes, hd⟩ := decodeTableWord_some hi
  rw [State.withFetchWord, hbytes]
  refine step_of_decoded ?_ ?_ ?_
  · rwa [placeBytes_run]
  · rwa [placeBytes_pc]
  · rwa [placeBytes_decoded hwf hp]

/-! ### What a step can answer -/

/-- A step is one of a running state, and takes a fault or completes the instruction at pc. -/
theorem step_raises_or_completes {s t : State} (h : step s = .next t) :
    s.run = .running ∧ ((∃ e, e.cause ≠ .unsupportedOperation ∧ t = raise e s) ∨
      ∃ i, s.pc ≤ 253 ∧ s.decoded = .ok i ∧ Completes i s t) := by
  obtain ⟨hr, ⟨e, he, -, rfl⟩ | ⟨i, hp, hd, hx⟩⟩ := step_cases h
  · exact ⟨hr, .inl ⟨e, he, rfl⟩⟩
  · rcases exec_cases hx with ⟨e, he, rfl⟩ | hc
    · exact ⟨hr, .inl ⟨e, by rw [he]; nofun, rfl⟩⟩
    · exact ⟨hr, .inr ⟨i, hp, hd, hc⟩⟩

/-- A step to FAULTED is a `raise`, never of UnsupportedOperation. -/
theorem step_faulted {s t : State} (h : step s = .next t) (hf : t.run = .faulted) :
    ∃ e, e.cause ≠ .unsupportedOperation ∧ t = raise e s := by
  obtain ⟨hr, he | ⟨i, -, -, hc⟩⟩ := step_raises_or_completes h
  · exact he
  · exact absurd hf (hc.run_ne_faulted hr)

/-- Settles O40: a step that halts has completed HLT, whose opcode byte was at pc; and with that byte there HLT runs. -/
theorem haltConditionIsTheHltOpcode : Obligations.HaltConditionIsTheHltOpcode := by
  refine ⟨fun s t hr h => ⟨fun hh => ?_, fun ⟨hp, hk⟩ => ?_⟩, fun s => step_of_halted⟩
  · obtain ⟨-, ⟨e, -, rfl⟩ | ⟨i, hp, hd, hc⟩⟩ := step_raises_or_completes h
    · cases hh
    · obtain ⟨-, hrun, -⟩ := hc.control
      have hi : i.mnemonic = .hlt := by
        by_contra hne
        rw [hrun, if_neg hne, hr] at hh
        cases hh
      exact ⟨hp, hi ▸ opcode_of_decode hd⟩
  · rw [step_of_opcode hr hp hk rfl] at h
    cases h
    rfl

/-- The pc after a completed instruction of a step: a byte, or the next instruction's address. -/
theorem nextPc_cases (i : Instr) {s : State} (hp : s.pc ≤ 253) : nextPc i s ≤ 255 ∨ nextPc i s = s.pc + i.length := by
  have byte_le (v : Byte) : v.toNat ≤ 255 := Nat.le_of_lt_succ v.isLt
  cases i with
  | hlt => exact .inl (Nat.le_trans hp (by decide))
  | ldi | add | mul | cmp | prn | push | pop => exact .inr rfl
  | call a =>
    rw [nextPc]
    split
    · exact .inl (Nat.le_trans (Nat.sub_le _ _) (byte_le s.sp))
    · exact .inl (byte_le _)
  | ret | jmp => exact .inl (byte_le _)
  | jeq a =>
    rw [nextPc]
    split
    · exact .inl (byte_le _)
    · exact .inr rfl
  | jne a =>
    rw [nextPc]
    split
    · exact .inr rfl
    · exact .inl (byte_le _)

theorem operandCount_le_two (k : Mnemonic) : k.operandCount ≤ 2 := by
  cases k <;> decide

theorem length_le_three (i : Instr) : i.length ≤ 3 :=
  Nat.add_le_add_left (operandCount_le_two i.mnemonic) 1

/-- Settles O41: a fault leaves pc, and a completed instruction leaves a byte or at most pc + 3. -/
theorem programCounterPassesTheTopOnlyFrom253 : Obligations.ProgramCounterPassesTheTopOnlyFrom253 := by
  intro s t hr h256 h
  obtain ⟨-, ⟨e, -, rfl⟩ | ⟨i, hp, hd, hc⟩⟩ := step_raises_or_completes h
  · exact ⟨h256, fun hpc => .inl ⟨hpc, rfl⟩⟩
  · have hlen := length_le_three i
    have hnext := nextPc_cases i hp
    rw [← hc.pc_eq] at hnext
    refine ⟨by omega, fun hpc => .inr ?_⟩
    obtain ⟨hs, hi⟩ : s.pc = 253 ∧ i.length = 3 := by omega
    rw [State.decoded, hs] at hd
    exact ⟨hs, i, hd, hi⟩

end Sys2Proof.Machine
end

section
/-! SUPPORT. What a fault leaves and what its record holds (R195, R196, R198). -/

namespace Sys2Proof.Machine

/-- Settles O42: the fields of the state and of the record. -/
theorem raiseChangesRunAndFaultOnly : Obligations.RaiseChangesRunAndFaultOnly :=
  fun e s => ⟨rfl, _, raise_fault s e, rfl, rfl, rfl⟩

/-- Settles O43: such a step is a `raise`. -/
theorem faultingStepHasNoOtherEffect : Obligations.FaultingStepHasNoOtherEffect := by
  intro s t _ h hf
  obtain ⟨e, -, rfl⟩ := step_faulted h hf
  exact ⟨rfl, _, raise_fault s e, rfl⟩

/-- The record of a fault is about the state it was taken from. -/
theorem record_of_raise {e : Raise} {s : State} {r : FaultRecord} (h : (raise e s).fault = some r) :
    r = ⟨e.cause, s.pc, peek s.pc s, peek (s.pc + 1) s, peek (s.pc + 2) s, e.info⟩ :=
  Option.some.inj (h.symm.trans (raise_fault s e))

/-- Settles O44: the record's bytes are what a read of the three addresses gives where there is such a cell. -/
theorem faultRecordHoldsTheBytesFetched : Obligations.FaultRecordHoldsTheBytesFetched := by
  intro s t r _ _ h hf hr
  obtain ⟨e, -, rfl⟩ := step_faulted h hf
  rw [record_of_raise hr]
  dsimp only
  have cell {a : Nat} (ha : a ≤ 255) : peek a s = some (s.mem.read a) := peek_of_lt (Nat.lt_succ_of_le ha) s
  have past {a : Nat} (ha : 256 ≤ a) : peek a s = none := peek_of_ge ha s
  refine ⟨fun hp => ?_, fun hp => ?_, fun hp => ?_, fun hp => ?_⟩
  · exact ⟨cell (by omega), cell (by omega), cell (by omega)⟩
  · rw [hp]
    exact ⟨cell (by decide), cell (by decide), past (by decide)⟩
  · rw [hp]
    exact ⟨cell (by decide), past (by decide), past (by decide)⟩
  · rw [hp]
    exact ⟨past (by decide), past (by decide), past (by decide)⟩

/-- Settles O45: the cause is the `raise`'s, which is one of the other two. -/
theorem noStepRaisesUnsupportedOperation : Obligations.NoStepRaisesUnsupportedOperation := by
  intro s t r h hf hr
  obtain ⟨⟨cause, info⟩, he, rfl⟩ := step_faulted h hf
  rw [record_of_raise hr]
  cases cause with
  | outOfRange => exact .inl rfl
  | illegalInstruction => exact .inr rfl
  | unsupportedOperation => exact absurd rfl he

end Sys2Proof.Machine
end

section
/-! SUPPORT. The invariant: it holds after reset and load, and a fault and a completed instruction keep it. -/

namespace Sys2Proof.Machine

theorem Inv.fault_eq_none {s : State} (h : Inv s) (hr : s.run = .running) : s.fault = none := by
  have hvalid := h.faultValid
  rw [hr] at hvalid
  simpa using hvalid

theorem Inv.raise {s : State} (h : Inv s) {e : Raise} (he : e.cause ≠ .unsupportedOperation) : Inv (raise e s) where
  memWf := h.memWf
  pcRange := h.pcRange
  flLegal := h.flLegal
  faultValid := by simp
  faultPc r hr := by rw [record_of_raise hr, raise_pc]
  faultCause r hr := by rwa [record_of_raise hr]

/-- FL keeps a legal value: CMP leaves a flags byte, and the others what they found. -/
theorem Completes.flLegal {i : Instr} {s t : State} (h : Completes i s t) (hs : flLegal s.fl = true) :
    flLegal t.fl = true := by
  by_cases hi : i.mnemonic = .cmp
  · cases i with
    | cmp a b => obtain ⟨_, _, rfl⟩ := h; exact cmpFlags_legal _ _
    | hlt | ret | ldi | prn | add | mul | push | pop | call | jmp | jeq | jne => cases hi
  · rwa [h.fl_eq hi]

theorem Completes.pc_le {i : Instr} {s t : State} (h : Completes i s t) (hp : s.pc ≤ 253) : t.pc ≤ Config.memSize := by
  have hlen := length_le_three i
  have hnext := nextPc_cases i hp
  rw [h.pc_eq]
  simp only [Config.memSize]
  omega

theorem Inv.completes {s t : State} (h : Inv s) (hr : s.run = .running) (hp : s.pc ≤ 253) {i : Instr}
    (hc : Completes i s t) : Inv t := by
  have hnone : t.fault = none := hc.fault_eq.trans (h.fault_eq_none hr)
  exact {
    memWf := hc.memWf h.memWf
    pcRange := hc.pc_le hp
    flLegal := hc.flLegal h.flLegal
    faultValid := iff_of_false (hc.run_ne_faulted hr) (by simp [hnone])
    faultPc := fun r hf => nomatch hnone.symm.trans hf
    faultCause := fun r hf => nomatch hnone.symm.trans hf }

/-- Settles O53: a step takes a fault or completes an instruction, and each keeps the invariant. -/
theorem stepKeepsTheInvariant : Obligations.StepKeepsTheInvariant := by
  intro s t hs h
  obtain ⟨hr, ⟨e, he, rfl⟩ | ⟨i, hp, -, hc⟩⟩ := step_raises_or_completes h
  · exact hs.raise he
  · exact hs.completes hr hp hc

theorem inv_reset : Inv State.reset where
  memWf := Memory.nil_wf
  pcRange := Nat.zero_le _
  flLegal := rfl
  faultValid := by decide
  faultPc _ h := nomatch (h : none = some _)
  faultCause _ h := nomatch (h : none = some _)

/-- The invariant asks of memory only its form. -/
theorem Inv.withMem {s : State} (h : Inv s) {m : Memory} (hm : m.wf) : Inv { s with mem := m } :=
  { h with memWf := hm }

theorem Inv.placeBytes {s : State} (h : Inv s) (bs : List Byte) (a : Nat) : Inv (placeBytes bs a s) := by
  rw [placeBytes_eq]
  exact h.withMem (placeBytes_wf bs a h.memWf)

/-- Settles O52: an accepted load places bytes in the reset state. -/
theorem resetMeetsTheInvariant : Obligations.ResetMeetsTheInvariant := by
  refine ⟨inv_reset, fun s t program h => ?_⟩
  rw [hostReset_cases h]
  exact inv_reset.placeBytes program 0

end Sys2Proof.Machine
end

section
/-! SUPPORT. Runs: what holds at the start and is kept by every step holds all along, and a run that has ended goes
nowhere. -/

namespace Sys2Proof.Machine

/-- What holds of the start and is kept by every step holds of every state of the run. -/
theorem Reaches.induct {P : State → Prop} {s t : State} (h : Reaches s t) (hs : P s)
    (hstep : ∀ t u, P t → Machine.step t = .next u → P u) : P t := by
  induction h with
  | start => exact hs
  | step _ hu ih => exact hstep _ _ ih hu

/-- Settles O54: the invariant holds after the load and is kept by every step. -/
theorem everyReachableStateMeetsTheInvariant : Obligations.EveryReachableStateMeetsTheInvariant := by
  intro s t u program hload hrun
  obtain ⟨-, hloaded⟩ := resetMeetsTheInvariant
  exact hrun.induct (hloaded s t program hload) stepKeepsTheInvariant

/-- An ended state has no next state. -/
theorem Ended.step_ne {s : State} (h : Ended s) (t : State) : step s ≠ .next t := fun ht =>
  h (step_raises_or_completes ht).1

/-- Settles O55: a run from an ended state never takes its first step. -/
theorem anEndedRunStaysAsItIs : Obligations.AnEndedRunStaysAsItIs := by
  intro s t hs hrun
  refine hrun.induct (P := (· = s)) rfl fun t u ht hu => ?_
  subst ht
  exact absurd hu (hs.step_ne u)

/-- One step leaves OUT or appends one value. -/
theorem step_out {s t : State} (h : step s = .next t) : s.out <+: t.out := by
  obtain ⟨-, ⟨e, -, rfl⟩ | ⟨i, -, -, hc⟩⟩ := step_raises_or_completes h
  · exact ⟨[], List.append_nil _⟩
  · obtain ⟨hout | ⟨-, v, hout⟩, -, -⟩ := hc.control
    · exact ⟨[], by rw [hout, List.append_nil]⟩
    · exact ⟨[v], hout.symm⟩

/-- Settles O56: each step extends what OUT held at the start. -/
theorem outOnlyGrowsInARun : Obligations.OutOnlyGrowsInARun := fun s _ hrun =>
  hrun.induct (P := fun t => s.out <+: t.out) ⟨[], List.append_nil _⟩ fun _ _ ht hu => ht.trans (step_out hu)

/-- A run either is at its start or has taken the first step. -/
theorem Reaches.eq_or_head {s t : State} (h : Reaches s t) : t = s ∨ ∃ u, Machine.step s = .next u ∧ Reaches u t := by
  induction h with
  | start => exact .inl rfl
  | step _ hu ih =>
    rcases ih with rfl | ⟨v, hv, hrun⟩
    · exact .inr ⟨_, hu, .start⟩
    · exact .inr ⟨v, hv, .step hrun hu⟩

/-- A run has one end: every state of it reaches the ended one. -/
theorem Reaches.ended {s t u : State} (ht : Reaches s t) (hend : Ended t) (hu : Reaches s u) : Reaches u t := by
  refine hu.induct (P := (Reaches · t)) ht fun v w hv hw => ?_
  rcases hv.eq_or_head with rfl | ⟨w', hw', hrun⟩
  · exact absurd hw (hend.step_ne w)
  · rw [hw] at hw'
    cases hw'
    exact hrun

/-- Settles O57: a FAULTED state on the way would be the run's end too, and the two ends are one state. -/
theorem aRunThatHaltsNeverFaults : Obligations.ARunThatHaltsNeverFaults := by
  rintro s ⟨t, ht, hhalted⟩ u hu hfaulted
  have ended_t : Ended t := by rw [Ended, hhalted]; nofun
  have ended_u : Ended u := by rw [Ended, hfaulted]; nofun
  have htu : t = u := anEndedRunStaysAsItIs u t ended_u (ht.ended ended_t hu)
  rw [htu, hfaulted] at hhalted
  cases hhalted

end Sys2Proof.Machine
end

section
/-! SUPPORT. The laws of two instructions, from what each of the two does alone. -/

namespace Sys2Proof.Machine

/-- POP, register 7 included where its cell holds the pointer itself: either way the pointer ends one above where it
was. -/
theorem exec_pop_of_top {a : Byte} (h : a.toNat < Config.nRegs) {s : State} (hsp : s.sp.toNat ≤ 254)
    (h7 : a.toNat = 7 → s.mem.read s.sp.toNat = s.sp) :
    ∃ t, exec (.pop a) s = .next t ∧ t.sp.toNat = s.sp.toNat + 1 ∧
      (a.toNat ≠ 7 → t.reg ⟨a.toNat, h⟩ = s.mem.read s.sp.toNat) ∧ SameRegsBut [a.toNat, 7] s t ∧ t.pc = s.pc + 2 ∧
      SameMem s t ∧ SameControl s t := by
  by_cases ha : a.toNat = 7
  · obtain rfl : a = 7 := toNat_eq_seven_iff.mp ha
    obtain ⟨-, hpop⟩ := popIntoTheStackPointerAddsOne s
    rw [h7 ha] at hpop
    obtain ⟨t, ht, htsp, hregs, hpc, hmem, hctl⟩ := hpop ((ne_255_iff s.sp).mpr hsp)
    have hregs' : SameRegsBut [(7 : Byte).toNat, 7] s t := fun j hj => hregs j (List.not_mem_of_not_mem_cons hj)
    exact ⟨t, ht, htsp, fun hne => absurd ha hne, hregs', hpc, hmem, hctl⟩
  · obtain ⟨-, -, hpop⟩ := popLoadsFromTheStackPointer a s ha
    obtain ⟨t, ht, hreg, htsp, hregs, hpc, hmem, hctl⟩ := hpop h hsp
    exact ⟨t, ht, htsp, fun _ => hreg, hregs, hpc, hmem, hctl⟩

theorem SameControl.trans {s t u : State} (h : SameControl s t) (h' : SameControl t u) : SameControl s u := by
  obtain ⟨hfl, hrun, hfault, hout⟩ := h
  obtain ⟨hfl', hrun', hfault', hout'⟩ := h'
  exact ⟨hfl'.trans hfl, hrun'.trans hrun, hfault'.trans hfault, hout'.trans hout⟩

/-- Settles O49: the POP's bytes lie clear of the cell the PUSH wrote, so it runs, and it reads the pushed byte back. -/
theorem pushThenPopRestores : Obligations.PushThenPopRestores := by
  intro s a h hwf hr hp h1 hpush hopa hpop hopa' hclear
  have h0 := (sp_ne_zero_iff s).mpr h1
  have hdec := State.decSp_toNat h0
  have hcellAt : s.sp.toNat - 1 = s.decSp.sp.toNat := by omega
  obtain ⟨-, -, hok⟩ := pushStoresBelowTheStackPointer a s
  obtain ⟨t, ht, -, htsp, hregs, hcell, hmem, hpc, hctl⟩ := hok h s.decSp hwf (spAdjust_dec h0)
  have hstep : step s = .next t := (step_of_opcode hr (by omega) hpush hopa).trans ht
  have hstep' : step t = exec (.pop a) t := by
    refine step_of_opcode (k := .pop) ?_ ?_ ?_ ?_
    · obtain ⟨-, hrun, -⟩ := hctl
      rw [hrun, hr]
    · omega
    · rw [hpc, hmem _ (by omega), hpop]
    · rw [hpc, hmem _ (by omega), hopa']
  rw [← htsp] at hcell hmem hdec hcellAt
  have hlt := s.sp.isLt
  obtain ⟨u, hu, husp, hreg, hregs', hpc', hmem', hctl'⟩ :=
    exec_pop_of_top h (s := t) (by omega) fun h7 => by rw [hcell, if_pos h7]
  have husp_eq : u.sp = s.sp := BitVec.eq_of_toNat_eq (by omega)
  refine ⟨t, u, hstep, hstep'.trans hu, fun j _ => ?_, by omega, hctl.trans hctl', fun x hx => ?_, ?_⟩
  · by_cases hj7 : j.val = 7
    · rw [show j = Config.spIndex from Fin.ext hj7]
      exact husp_eq
    · by_cases hja : j.val = a.toNat
      · obtain rfl : j = ⟨a.toNat, h⟩ := Fin.ext hja
        rw [hreg hj7, hcell, if_neg hj7]
      · rw [hregs' j (by simp [hja, hj7]), hregs j (by simp [hj7])]
  · rw [hmem' x, hmem x (hcellAt ▸ hx)]
  · rw [hmem', hcellAt, hcell, htsp, State.decSp_sp]

/-- Settles O50: the CALL leaves the return address at the decremented pointer, and the RET takes it from there. -/
theorem callThenReturnComesBack : Obligations.CallThenReturnComesBack := by
  intro s a h h7 hwf hr hp h1 hcall hopa
  have h0 := (sp_ne_zero_iff s).mpr h1
  have hdec := State.decSp_toNat h0
  have hcellAt : s.sp.toNat - 1 = s.decSp.sp.toNat := by omega
  obtain ⟨-, -, hok⟩ := callPushesTheReturnAddressAndJumps a s
  obtain ⟨t, ht, -, htsp, -, hcell, -, hpc, -⟩ := hok h s.decSp hwf hp (spAdjust_dec h0)
  rw [if_neg h7] at hpc
  refine ⟨t, (step_of_opcode hr hp hcall hopa).trans ht, hpc, fun u hur hup hret husp hucell => ?_⟩
  rw [hcellAt] at hucell ⊢
  rw [htsp] at husp
  have hlt := s.sp.isLt
  obtain ⟨-, hok'⟩ := retPopsTheProgramCounter u
  obtain ⟨v, hv, hvpc, hvsp, -, hvmem, -⟩ := hok' (by rw [husp]; omega)
  rw [husp] at hvpc hvsp
  refine ⟨v, (step_of_opcode hur hup hret rfl).trans hv, ?_, BitVec.eq_of_toNat_eq (by omega), ?_⟩
  · rw [hvpc, hucell, hcell]
  · rw [hvmem, hucell, hcell]

/-- Settles O51: the PUSH's cell is the byte its own advance of pc fetches next. -/
theorem storeIntoCodeIsSeenByTheNextFetch : Obligations.StoreIntoCodeIsSeenByTheNextFetch := by
  intro s a h h7 hwf hr hp hpush hopa hsp
  have h0 := (sp_ne_zero_iff s).mpr (by omega)
  have hdec := State.decSp_toNat h0
  obtain ⟨-, -, hok⟩ := pushStoresBelowTheStackPointer a s
  obtain ⟨t, ht, -, -, -, hcell, -, hpc, -⟩ := hok h s.decSp hwf (spAdjust_dec h0)
  refine ⟨t, _, (step_of_opcode hr (by omega) hpush hopa).trans ht, fetch_of_le (by omega), ?_⟩
  rw [hpc, show s.pc + 2 = s.decSp.sp.toNat by omega, hcell, if_neg h7]

end Sys2Proof.Machine
end
